-- ==== Sys2Proof/Word.lean ====
section
/-! DEFINITION. The words of the hardware: 32-bit host words and command words (spec/00_scope.md R8), bytes of operand
RAM, and the 12-bit offsets of the window (spec/20_memory.md R50). -/

namespace Sys2Proof

/-- A host word, and a command word (WORD and CMD_WIDTH of R8). -/
abbrev Word := BitVec 32

/-- A byte of operand RAM (R51). -/
abbrev Byte := BitVec 8

/-- An offset in the window: the block decodes only these 12 bits of an address (R50). -/
abbrev Offset := BitVec 12

end Sys2Proof
end

