-- ==== Sys2Proof/Config.lean ====
section
/-! DEFINITION. The parameters of spec/00_scope.md R8. A value the spec marks OPEN (P1, P2, P3 of
spec/93_implementation_defined.md) and a value it leaves undefined (U2) is a constant with no body, so that nothing can be
proved that depends on a choice of it (notes/assumptions/5, 8, 9). -/

namespace Sys2Proof

/-- P, the modulus p = 2^255 − 19 (R2). -/
abbrev Config.fieldPrime : Nat := 2 ^ 255 - 19

/-- A field value: an integer in [0, p) (R3). It is what a field register holds (R20, R21). -/
abbrev FieldValue := Fin Config.fieldPrime

/-- NFREG, the number of field registers (R8). -/
abbrev Config.nfreg : Nat := 16

/-- NSLOT, the number of operand RAM slots (R8). -/
abbrev Config.nslot : Nat := 16

/-- SLOT_BYTES, the size of a slot (R8). -/
abbrev Config.slotBytes : Nat := 32

/-- OPRAM_BYTES, the size of the operand RAM (R8). -/
abbrev Config.opramBytes : Nat := 512

/-- WINDOW_BYTES, the size of the window (R8). -/
abbrev Config.windowBytes : Nat := 4096

/-- The value of the ID register at all times (spec/10_state.md R35). -/
def Config.idWord : Word := 0xED250100

/-- FAU_BASE / 4096. OPEN (P1). -/
opaque Config.fauBasePage : Nat

/-- FAU_BASE, the window's base address in the host's address space: OPEN, a multiple of 4096 (R8, R50). -/
def Config.fauBase : Nat := Config.windowBytes * Config.fauBasePage

/-- FAU_IRQ_LINE, the host interrupt input that `irq` drives. OPEN (P2; R180). -/
opaque Config.fauIrqLine : Nat

/-- LAT_FADD − 1. OPEN (P3). -/
opaque Config.latFaddLessOne : Nat
/-- LAT_FSUB − 1. OPEN (P3). -/
opaque Config.latFsubLessOne : Nat
/-- LAT_FMUL − 1. OPEN (P3). -/
opaque Config.latFmulLessOne : Nat
/-- LAT_FSQR − 1. OPEN (P3). -/
opaque Config.latFsqrLessOne : Nat
/-- LAT_FNEG − 1. OPEN (P3). -/
opaque Config.latFnegLessOne : Nat
/-- LAT_FINV − 1. OPEN (P3). -/
opaque Config.latFinvLessOne : Nat
/-- LAT_FCSWAP − 1. OPEN (P3). -/
opaque Config.latFcswapLessOne : Nat
/-- LAT_FLD − 1. OPEN (P3). -/
opaque Config.latFldLessOne : Nat
/-- LAT_FST − 1. OPEN (P3). -/
opaque Config.latFstLessOne : Nat

/-- LAT_FADD ≥ 1: cycles from acceptance to completion (R8, spec/70 R220). -/
def Config.latFadd : Nat := Config.latFaddLessOne + 1
/-- LAT_FSUB ≥ 1 (R8, R220). -/
def Config.latFsub : Nat := Config.latFsubLessOne + 1
/-- LAT_FMUL ≥ 1 (R8, R220). -/
def Config.latFmul : Nat := Config.latFmulLessOne + 1
/-- LAT_FSQR ≥ 1 (R8, R220). -/
def Config.latFsqr : Nat := Config.latFsqrLessOne + 1
/-- LAT_FNEG ≥ 1 (R8, R220). -/
def Config.latFneg : Nat := Config.latFnegLessOne + 1
/-- LAT_FINV ≥ 1 (R8, R220). -/
def Config.latFinv : Nat := Config.latFinvLessOne + 1
/-- LAT_FCSWAP ≥ 1, one latency for C = 0 and C = 1 (R8, R220; spec/41_cswap.md R142). -/
def Config.latFcswap : Nat := Config.latFcswapLessOne + 1
/-- LAT_FLD ≥ 1 (R8, R220). -/
def Config.latFld : Nat := Config.latFldLessOne + 1
/-- LAT_FST ≥ 1 (R8, R220). -/
def Config.latFst : Nat := Config.latFstLessOne + 1

/-- Free data of the response to a read made while `rst` is asserted (R200: no defined response; U2). -/
opaque Config.freeWord : Nat → Word

/-- Whether the response to an access made while `rst` is asserted is a bus error: free (R200, U2). -/
opaque Config.freeBit : Nat → Bool

end Sys2Proof
end

