-- ==== Sys2Proof/Syntax.lean ====
section
/-! DEFINITION. The commands of spec/30_encoding.md R84, one constructor each; the causes for which a command word is
refused (spec/60_exceptions.md R171); and the source statements of the assembler (R89, R90). -/

namespace Sys2Proof

/-- A field register number, 0 to 15: the 4-bit field value itself (R82). -/
abbrev Reg := Fin Config.nfreg

/-- A slot number, 0 to 15 (R82). -/
abbrev Slot := Fin Config.nslot

/-- The nine commands. Operands stand in the order of the assembler's operands (R83). Every field is bounded by its type,
so every term is a well-formed command. -/
inductive Instr where
  /-- FADD fD, fA, fB (R102) -/
  | fadd (d a b : Reg)
  /-- FSUB fD, fA, fB (R103) -/
  | fsub (d a b : Reg)
  /-- FMUL fD, fA, fB (R104) -/
  | fmul (d a b : Reg)
  /-- FSQR fD, fA (R105) -/
  | fsqr (d a : Reg)
  /-- FNEG fD, fA (R106) -/
  | fneg (d a : Reg)
  /-- FINV fD, fA (R107) -/
  | finv (d a : Reg)
  /-- FCSWAP fA, fB, C (R141) -/
  | fcswap (a b : Reg) (c : Bool)
  /-- FLD fD, sS (R150) -/
  | fld (d : Reg) (s : Slot)
  /-- FST sS, fA (R160) -/
  | fst (s : Slot) (a : Reg)
  deriving DecidableEq, Repr

/-- The command errors (R171). -/
inductive CommandError where
  /-- cause 1: OP is 0x00 or 0x0A to 0xFF (R86) -/
  | illegalOpcode
  /-- cause 2: OP is legal and a must-be-zero bit of its row is set (R87) -/
  | reservedField
  /-- cause 3: a CMD write while the unit is BUSY -/
  | cmdBusy
  deriving DecidableEq, Repr

/-- A statement of the assembler (R89) with its operands as written: numbers of any size, so that a statement can be
ill-formed. The last five are the pseudo-instructions of R90. -/
inductive Stmt where
  | fadd (d a b : Nat)
  | fsub (d a b : Nat)
  | fmul (d a b : Nat)
  | fsqr (d a : Nat)
  | fneg (d a : Nat)
  | finv (d a : Nat)
  | fcswap (a b c : Nat)
  | fld (d s : Nat)
  | fst (s a : Nat)
  /-- `fnop` -/
  | fnop
  /-- `fswap fA, fB` -/
  | fswap (a b : Nat)
  /-- `fdbl fD, fA` -/
  | fdbl (d a : Nat)
  /-- `fzero fD` -/
  | fzero (d : Nat)
  /-- `fmov fD, fA, sK` -/
  | fmov (d a k : Nat)
  deriving DecidableEq, Repr

end Sys2Proof
end

