-- ==== Sys2Proof/WellFormed.lean ====
section
/-! DEFINITION. Well-formed assembler statements (spec/30_encoding.md R82, R89): register numbers f0 to f15, slot numbers
s0 to s15, the swap condition 0 or 1. A term of `Instr` has its fields bounded by their types and needs no check; a word is
checked by the decoder (R85). -/

namespace Sys2Proof

/-- A register operand is f0 to f15 (R89). -/
def regOk (n : Nat) : Bool := n < Config.nfreg

/-- A slot operand is s0 to s15 (R89). -/
def slotOk (n : Nat) : Bool := n < Config.nslot

/-- The swap condition is 0 or 1 (R89). -/
def condOk (n : Nat) : Bool := n < 2

/-- Every operand of the statement is one the syntax has (R89). -/
def Stmt.wellFormed : Stmt → Bool
  | .fadd d a b => regOk d && regOk a && regOk b
  | .fsub d a b => regOk d && regOk a && regOk b
  | .fmul d a b => regOk d && regOk a && regOk b
  | .fsqr d a => regOk d && regOk a
  | .fneg d a => regOk d && regOk a
  | .finv d a => regOk d && regOk a
  | .fcswap a b c => regOk a && regOk b && condOk c
  | .fld d s => regOk d && slotOk s
  | .fst s a => slotOk s && regOk a
  | .fnop => true
  | .fswap a b => regOk a && regOk b
  | .fdbl d a => regOk d && regOk a
  | .fzero d => regOk d
  | .fmov d a k => regOk d && regOk a && slotOk k

end Sys2Proof
end

