-- ==== Sys2Proof/Decode.lean ====
section
/-! DEFINITION. Decoding and encoding of command words, written from the tables of spec/30_encoding.md R81 to R87. The
decoder is total on all 2^32 words and refuses by cause (R85). A command is one word (R80), so there is no byte stream to
decode. -/

namespace Sys2Proof

/-- OP = w[7:0] (R81). -/
def fieldOp (w : Word) : BitVec 8 := w.extractLsb' 0 8
/-- D = w[11:8] (R81). -/
def fieldD (w : Word) : Reg := (w.extractLsb' 8 4).toFin
/-- A = w[15:12] (R81). -/
def fieldA (w : Word) : Reg := (w.extractLsb' 12 4).toFin
/-- B = w[19:16] (R81). -/
def fieldB (w : Word) : Reg := (w.extractLsb' 16 4).toFin
/-- S, the B field read as a slot number in FLD and FST (R81, R82). -/
def fieldS (w : Word) : Slot := (w.extractLsb' 16 4).toFin
/-- C = w[20] (R81). -/
def fieldC (w : Word) : Bool := w[20]

/-- A row of the opcode map: a word selects the command when `(w and mask) = pattern` (R84). -/
structure OpcodeRow where
  /-- the opcode, OP = w[7:0] -/
  op : BitVec 8
  /-- the column "match" of R84 -/
  pattern : Word
  /-- the column "mask" of R84 -/
  mask : Word
  deriving DecidableEq, Repr

/-- The word is of this row (R84). -/
def OpcodeRow.selects (r : OpcodeRow) (w : Word) : Bool := w &&& r.mask == r.pattern

/-- The FADD row of R84. -/
def rowFadd : OpcodeRow := ⟨0x01, 0x00000001, 0xFFF000FF⟩
/-- The FSUB row of R84. -/
def rowFsub : OpcodeRow := ⟨0x02, 0x00000002, 0xFFF000FF⟩
/-- The FMUL row of R84. -/
def rowFmul : OpcodeRow := ⟨0x03, 0x00000003, 0xFFF000FF⟩
/-- The FSQR row of R84. -/
def rowFsqr : OpcodeRow := ⟨0x04, 0x00000004, 0xFFFF00FF⟩
/-- The FNEG row of R84. -/
def rowFneg : OpcodeRow := ⟨0x05, 0x00000005, 0xFFFF00FF⟩
/-- The FINV row of R84. -/
def rowFinv : OpcodeRow := ⟨0x06, 0x00000006, 0xFFFF00FF⟩
/-- The FCSWAP row of R84. -/
def rowFcswap : OpcodeRow := ⟨0x07, 0x00000007, 0xFFE00FFF⟩
/-- The FLD row of R84. -/
def rowFld : OpcodeRow := ⟨0x08, 0x00000008, 0xFFF0F0FF⟩
/-- The FST row of R84. -/
def rowFst : OpcodeRow := ⟨0x09, 0x00000009, 0xFFF00FFF⟩

/-- The opcode map (R84). -/
def opcodeTable : List OpcodeRow :=
  [rowFadd, rowFsub, rowFmul, rowFsqr, rowFneg, rowFinv, rowFcswap, rowFld, rowFst]

/-- The row whose OP is the word's, with the command the word's fields give it; none for OP = 0x00 and 0x0A to 0xFF
(R85, R86). -/
def rowOf (w : Word) : Option (OpcodeRow × Instr) :=
  match (fieldOp w).toNat with
  | 1 => some (rowFadd, .fadd (fieldD w) (fieldA w) (fieldB w))
  | 2 => some (rowFsub, .fsub (fieldD w) (fieldA w) (fieldB w))
  | 3 => some (rowFmul, .fmul (fieldD w) (fieldA w) (fieldB w))
  | 4 => some (rowFsqr, .fsqr (fieldD w) (fieldA w))
  | 5 => some (rowFneg, .fneg (fieldD w) (fieldA w))
  | 6 => some (rowFinv, .finv (fieldD w) (fieldA w))
  | 7 => some (rowFcswap, .fcswap (fieldA w) (fieldB w) (fieldC w))
  | 8 => some (rowFld, .fld (fieldD w) (fieldS w))
  | 9 => some (rowFst, .fst (fieldS w) (fieldA w))
  | _ => none

/-- Decode (R85): a command, ILLEGAL_OPCODE, or RESERVED_FIELD. -/
def decode (w : Word) : Except CommandError Instr :=
  match rowOf w with
  | none => .error .illegalOpcode
  | some (row, i) => if row.selects w then .ok i else .error .reservedField

/-- The cause code recorded for a command error (spec/60_exceptions.md R171). -/
def CommandError.code : CommandError → BitVec 4
  | .illegalOpcode => 1
  | .reservedField => 2
  | .cmdBusy => 3

/-- `OP + (D << 8) + (A << 12) + (B << 16) + (C << 20)` (R83); RSV is 0. -/
def buildWord (op d a b c : Nat) : Word :=
  BitVec.ofNat 32 (op + d <<< 8 + a <<< 12 + b <<< 16 + c <<< 20)

/-- The word of a command, every field its format does not use equal to 0 (R83). -/
def encode : Instr → Word
  | .fadd d a b => buildWord 0x01 d a b 0
  | .fsub d a b => buildWord 0x02 d a b 0
  | .fmul d a b => buildWord 0x03 d a b 0
  | .fsqr d a => buildWord 0x04 d a 0 0
  | .fneg d a => buildWord 0x05 d a 0 0
  | .finv d a => buildWord 0x06 d a 0 0
  | .fcswap a b c => buildWord 0x07 0 a b c.toNat
  | .fld d s => buildWord 0x08 d 0 s 0
  | .fst s a => buildWord 0x09 0 a s 0

/-- The command the decoder reads from the word whose bits are the low `nbits` bits of `w`; none where it refuses, and for
bits beyond the one 32-bit word a command has (R80). -/
def decodeTableWord (nbits w : Nat) : Option Instr :=
  let bits := w % 2 ^ nbits
  if bits < 2 ^ 32 then (decode (BitVec.ofNat 32 bits)).toOption else none

end Sys2Proof
end

