-- ==== Sys2Proof/Machine/State.lean ====
section
/-! DEFINITION. The state of the block (spec/10_state.md section 8), the host moves that reach it, the reasons a step can
stop, and the state after reset (spec/70_reset_and_hazards.md R200). Plain data. -/

namespace Sys2Proof.Machine

open Sys2Proof

/-- Operand RAM as (address, byte) pairs in one canonical form: addresses strictly rising, below 512, and no entry equal to
what an unlisted address reads as (`Memory.wf`). The address is the window's offset (spec/20_memory.md R51). -/
abbrev Memory := List Host.Cell

/-- The direction of a host access; a write supplies a word (R54). -/
inductive AccessKind where
  | read
  | write (w : Word)
  deriving DecidableEq, Repr

/-- A host access to the window: the 12 offset bits the block decodes (R50), how many bytes wide it is (4 for the 32-bit
accesses of R54; any other width gets a bus error, R55), and its direction. -/
structure Access where
  offset : Offset
  bytes : Nat
  kind : AccessKind
  deriving DecidableEq, Repr

/-- What reaches the block from outside, one at a time, in arrival order (R63): the model's own vocabulary
(notes/assumptions/1, 2). -/
inductive HostMove where
  /-- the host's next access arrives -/
  | access (a : Access)
  /-- a clock cycle passes in which no access arrives -/
  | tick
  /-- the host makes no access until the unit is IDLE: it polls STATUS or waits for `irq` (R65, R210; notes/assumptions/12) -/
  | awaitIdle
  /-- the reset input is asserted and released (R200), perhaps with an access made meanwhile, which the host must not make
  (R200, R222; notes/assumptions/5) -/
  | rst (during : Option Access)
  deriving DecidableEq, Repr

/-- The block's answer to one access: the data of a read (none for a write), and whether it is a bus error (R55). -/
structure Response where
  data : Option Word
  busError : Bool
  deriving DecidableEq, Repr

/-- The unit's mode. In BUSY it holds the accepted command word and the clock cycles left before completion; in IDLE it
holds no command (spec/10_state.md R24). -/
inductive UnitState where
  | idle
  | busy (pend : Word) (count : Nat)
  deriving DecidableEq, Repr

/-- The state. The fields up to `stalled` are the block's (R20 to R57); the last three are the model's own: what has not yet
reached the block, what the block has answered, and a counter for free values (notes/assumptions/2, 5). -/
structure State where
  /-- F0 … F15 (R20) -/
  f : Vector FieldValue 16
  /-- OPRAM (R51) -/
  opram : Memory
  /-- mode, `pend` and the cycle count (R24) -/
  unit : UnitState
  /-- STATUS.DONE (R32) -/
  done : Bool
  /-- STATUS.ERR (R32) -/
  err : Bool
  /-- ERRCAUSE.CAUSE (R33) -/
  errCause : BitVec 4
  /-- ERRCMD (R34) -/
  errCmd : Word
  /-- CTRL.IE_DONE (R36) -/
  ieDone : Bool
  /-- CTRL.IE_ERR (R36) -/
  ieErr : Bool
  /-- the host access that is held because it names an OPRAM offset and the unit was BUSY when it arrived (R57) -/
  stalled : Option Access
  /-- the moves that have not yet reached the block, oldest first -/
  inbox : List HostMove
  /-- the answers given so far, newest first -/
  responses : List Response
  /-- the index of the next free value -/
  freeIndex : Nat
  deriving DecidableEq, Repr

/-- Why the machine stops with a fault. -/
inductive Fault where
  /-- Raised by a completion when the unit is BUSY with a word that R85 refuses. No run reaches such a state, because only a
  decoded word is accepted (R170; `Inv` in Sys2Proof/Safety.lean). Safe: the model stops where the hardware cannot be. -/
  | pendNotACommand (pend : Word)
  deriving DecidableEq, Repr

/-- Why a step has no meaning. -/
inductive Refusal where
  /-- Raised by `exec` for a command that has no meaning yet; every command has one, so nothing raises it. Safe. -/
  | notModelled (mnemonic : String)
  deriving DecidableEq, Repr

/-- The state after reset (R200; R23, R24, R32, R33, R34, R36, R58). The last four fields are empty or zero: nothing is held,
nothing has arrived and nothing was answered (notes/assumptions/2, 5). -/
def State.reset : State where
  f := Vector.replicate 16 ⟨0, by decide⟩
  opram := []
  unit := .idle
  done := false
  err := false
  errCause := 0
  errCmd := 0
  ieDone := false
  ieErr := false
  stalled := none
  inbox := []
  responses := []
  freeIndex := 0

end Sys2Proof.Machine
end

