-- ==== Sys2Proof/Machine/Ops.lean ====
section
/-! DEFINITION. The named operations the meanings and the window share: reduction mod p (spec/00_scope.md R9), bytes of
operand RAM and little-endian integers (R10, R11; spec/20_memory.md R51, R56), the entry of a command error and the return
from it (spec/60_exceptions.md R172, R185, R186), reset (spec/70 R200), and the answer to an access. -/

namespace Sys2Proof.Machine

open Sys2Proof

/-- `n mod p` for a non-negative integer (R9). -/
def reduce (n : Nat) : FieldValue := ⟨n % Config.fieldPrime, Nat.mod_lt _ (by decide)⟩

/-- `z mod p` for an integer: the least non-negative residue, also for negative z (R9). -/
def reduceInt (z : Int) : FieldValue := reduce (z % (Config.fieldPrime : Int)).toNat

/-- `x ^ e mod m` by squaring and multiplying, for an exponent below `2 ^ bits` (R107; notes/assumptions/11). -/
def powMod (m : Nat) : Nat → Nat → Nat → Nat
  | 0, _, _ => 1 % m
  | bits + 1, x, e =>
    if e % 2 = 1 then x * powMod m bits (x * x % m) (e / 2) % m else powMod m bits (x * x % m) (e / 2)

/-! ### Operand RAM -/

/-- What an address that is not listed reads as: OPRAM's reset contents (R58). -/
def unlistedByte : Byte := 0x00

/-- OPRAM[a] (R51). -/
def Memory.readByte : Memory → Nat → Byte
  | [], _ => unlistedByte
  | (k, c) :: m, a => if k = a then c else Memory.readByte m a

/-- An entry in front of a memory; a byte equal to what an unlisted address reads as is not listed. -/
def Memory.putFront (a : Nat) (b : Byte) (m : Memory) : Memory :=
  if b = unlistedByte then m else (a, b) :: m

/-- OPRAM[a] <- b, keeping the canonical form (R51). -/
def Memory.writeByte (a : Nat) (b : Byte) : Memory → Memory
  | [] => Memory.putFront a b []
  | (k, c) :: m =>
    if a < k then Memory.putFront a b ((k, c) :: m)
    else if a = k then Memory.putFront a b m
    else (k, c) :: Memory.writeByte a b m

/-- `MemRead(addr, n)`: the n bytes from addr as a little-endian integer (R10). -/
def Memory.read (m : Memory) (addr : Nat) : Nat → Nat
  | 0 => 0
  | n + 1 => (m.readByte addr).toNat + 2 ^ 8 * Memory.read m (addr + 1) n

/-- `MemWrite(addr, n, v)`: OPRAM[addr + k] <- (v >> 8k) and 0xFF for k < n (R10). -/
def Memory.write (m : Memory) (addr : Nat) : Nat → Nat → Memory
  | 0, _ => m
  | n + 1, v => Memory.write (m.writeByte addr (BitVec.ofNat 8 v)) (addr + 1) n (v / 2 ^ 8)

/-- The canonical form from address `lo` on: addresses strictly rising and inside OPRAM, no entry equal to what an unlisted
address reads as. -/
def Memory.wfFrom (lo : Nat) : Memory → Bool
  | [] => true
  | (k, c) :: m =>
    decide (lo ≤ k) && decide (k < Config.opramBytes) && decide (c ≠ unlistedByte) && Memory.wfFrom (k + 1) m

/-- The memory is in its one canonical form, so that equal contents are equal data. -/
def Memory.wf (m : Memory) : Bool := Memory.wfFrom 0 m

/-! ### Command errors -/

/-- RecordError(code, w), the entry of a command error: only ERR, ERRCAUSE and ERRCMD change (R172, R185). -/
def State.recordError (e : CommandError) (w : Word) (s : State) : State :=
  { s with err := true, errCause := e.code, errCmd := w }

/-- The return from a command error: ERR, ERRCAUSE and ERRCMD are cleared and nothing else changes (R32, R186). -/
def State.clearError (s : State) : State :=
  { s with err := false, errCause := 0, errCmd := 0 }

/-! ### One field at a time -/

/-- The state with the moves that have not yet reached the block replaced. -/
def State.withInbox (moves : List HostMove) (s : State) : State := { s with inbox := moves }

/-- The state with the unit's mode replaced (R24). -/
def State.withUnit (u : UnitState) (s : State) : State := { s with unit := u }

/-- The state with the held access replaced (spec/20_memory.md R57). -/
def State.withStalled (a : Option Access) (s : State) : State := { s with stalled := a }

/-- STATUS.DONE <- b (R32). -/
def State.withDone (b : Bool) (s : State) : State := { s with done := b }

/-- CTRL.IE_DONE and CTRL.IE_ERR (R36). -/
def State.withEnables (ieDone ieErr : Bool) (s : State) : State := { s with ieDone := ieDone, ieErr := ieErr }

/-- The state with operand RAM replaced (R51). -/
def State.withOpram (m : Memory) (s : State) : State := { s with opram := m }

/-- The state with the index of the next free value replaced. -/
def State.withFreeIndex (n : Nat) (s : State) : State := { s with freeIndex := n }

/-! ### Reset, completion, answers -/

/-- The block takes its reset state, whatever it was doing (R200, R201, R202). What is outside the block stays: the access
the host's bus holds (R57), the moves to come, the answers already given. -/
def State.resetBlock (s : State) : State :=
  { State.reset with stalled := s.stalled, inbox := s.inbox, responses := s.responses, freeIndex := s.freeIndex }

/-- What a completion does after Exec: mode <- IDLE, pend <- none, STATUS.DONE <- 1 (spec/10_state.md R27). -/
def State.finish (s : State) : State := { s with unit := .idle, done := true }

/-- The block answers an access. -/
def State.respond (r : Response) (s : State) : State := { s with responses := r :: s.responses }

/-- LAT_op of a command: it depends on the opcode only (spec/70 R220; R110, R142). -/
def latencyOf : Instr → Nat
  | .fadd _ _ _ => Config.latFadd
  | .fsub _ _ _ => Config.latFsub
  | .fmul _ _ _ => Config.latFmul
  | .fsqr _ _ => Config.latFsqr
  | .fneg _ _ => Config.latFneg
  | .finv _ _ => Config.latFinv
  | .fcswap _ _ _ => Config.latFcswap
  | .fld _ _ => Config.latFld
  | .fst _ _ => Config.latFst

end Sys2Proof.Machine
end

