-- ==== Sys2Proof/Machine/Operands.lean ====
section
/-! DEFINITION. The operand forms: field registers by number and slots by number (spec/30_encoding.md R82). No register is
hardwired and none has an alias (spec/10_state.md R20). -/

namespace Sys2Proof.Machine

open Sys2Proof

/-- F[i] (spec/00_scope.md R10). -/
def State.readF (s : State) (i : Reg) : FieldValue := s.f.get i

/-- F[i] <- v (R10). -/
def State.writeF (s : State) (i : Reg) (v : FieldValue) : State := { s with f := s.f.set i.val v i.isLt }

/-- The OPRAM address of a slot's first byte, 32·S (R82; spec/20_memory.md R51, R59). -/
def slotAddress (k : Slot) : Nat := Config.slotBytes * k.val

/-- MemRead(32·S, 32): the slot's 32 bytes as a little-endian integer (R10, R11). -/
def State.readSlot (s : State) (k : Slot) : Nat := s.opram.read (slotAddress k) Config.slotBytes

/-- MemWrite(32·S, 32, v) (R10). -/
def State.writeSlot (s : State) (k : Slot) (v : Nat) : State :=
  { s with opram := s.opram.write (slotAddress k) Config.slotBytes v }

end Sys2Proof.Machine
end

