-- ==== Sys2Proof/Machine/Cswap.lean ====
section
/-! DEFINITION. FCSWAP (spec/41_cswap.md R140, R141). -/

namespace Sys2Proof.Machine

open Sys2Proof

/-- FCSWAP (R141): both registers are read before either is written, so A = B leaves the register unchanged (R12); with
C = 0 nothing is written. -/
def execFcswap (a b : Reg) (c : Bool) (s : State) : Host.Outcome State Fault Refusal :=
  let x := s.readF a
  let y := s.readF b
  .next (if c then (s.writeF a y).writeF b x else s)

end Sys2Proof.Machine
end

