-- ==== Sys2Proof/Machine/FieldOps.lean ====
section
/-! DEFINITION. FADD, FSUB, FMUL, FSQR, FNEG, FINV (spec/40_field_ops.md R102 to R107). Each reads its sources, computes
over the integers, reduces mod p and writes F[D]; nothing else changes and none of them can fail (R100, R101). -/

namespace Sys2Proof.Machine

open Sys2Proof

/-- (x + y) mod p (R102). -/
def fieldAdd (x y : FieldValue) : FieldValue := reduce (x.val + y.val)

/-- (x − y) mod p (R103). -/
def fieldSub (x y : FieldValue) : FieldValue := reduceInt ((x.val : Int) - (y.val : Int))

/-- (x · y) mod p: the exact product, reduced (R104, R108). -/
def fieldMul (x y : FieldValue) : FieldValue := reduce (x.val * y.val)

/-- (x · x) mod p (R105). -/
def fieldSqr (x : FieldValue) : FieldValue := reduce (x.val * x.val)

/-- (0 − x) mod p (R106). -/
def fieldNeg (x : FieldValue) : FieldValue := reduceInt (0 - (x.val : Int))

/-- x ^ (p − 2) mod p (R107); `powMod` is the power (Sys2Proof/Laws/Arith.lean, powMod_eq). -/
def fieldInv (x : FieldValue) : FieldValue :=
  reduce (powMod Config.fieldPrime 255 x.val (Config.fieldPrime - 2))

/-- FADD (R102). -/
def execFadd (d a b : Reg) (s : State) : Host.Outcome State Fault Refusal :=
  .next (s.writeF d (fieldAdd (s.readF a) (s.readF b)))

/-- FSUB (R103): F[A] is the minuend, F[B] the subtrahend. -/
def execFsub (d a b : Reg) (s : State) : Host.Outcome State Fault Refusal :=
  .next (s.writeF d (fieldSub (s.readF a) (s.readF b)))

/-- FMUL (R104). -/
def execFmul (d a b : Reg) (s : State) : Host.Outcome State Fault Refusal :=
  .next (s.writeF d (fieldMul (s.readF a) (s.readF b)))

/-- FSQR (R105). -/
def execFsqr (d a : Reg) (s : State) : Host.Outcome State Fault Refusal :=
  .next (s.writeF d (fieldSqr (s.readF a)))

/-- FNEG (R106): 0 gives 0, never p. -/
def execFneg (d a : Reg) (s : State) : Host.Outcome State Fault Refusal :=
  .next (s.writeF d (fieldNeg (s.readF a)))

/-- FINV (R107): 0 gives 0, and no error is raised. -/
def execFinv (d a : Reg) (s : State) : Host.Outcome State Fault Refusal :=
  .next (s.writeF d (fieldInv (s.readF a)))

end Sys2Proof.Machine
end

