-- ==== Sys2Proof/Machine/Serialization.lean ====
section
/-! DEFINITION. FLD and FST, the two directions of byte serialization (spec/42_serialization.md R150, R151, R160). -/

namespace Sys2Proof.Machine

open Sys2Proof

/-- The field value of a 256-bit integer: bit 255 is ignored, then the value is reduced mod p (R150). Every 32-byte string
is accepted (R151). -/
def fieldOfBytes (n : Nat) : FieldValue := reduce (n % 2 ^ 255)

/-- FLD (R150). -/
def execFld (d : Reg) (k : Slot) (s : State) : Host.Outcome State Fault Refusal :=
  .next (s.writeF d (fieldOfBytes (s.readSlot k)))

/-- FST (R160): the canonical encoding, the 32 bytes of the residue. -/
def execFst (k : Slot) (a : Reg) (s : State) : Host.Outcome State Fault Refusal :=
  .next (s.writeSlot k (s.readF a).val)

end Sys2Proof.Machine
end

