-- ==== Sys2Proof/Machine/Dispatch.lean ====
section
/-! DEFINITION. Exec of a command (spec/10_state.md R27): one arm per command of spec/opcode_table.json. -/

namespace Sys2Proof.Machine

open Sys2Proof

/-- Exec(i): the command's rule in spec/40, spec/41 or spec/42. -/
def exec (i : Instr) (s : State) : Host.Outcome State Fault Refusal :=
  match i with
  | .fadd d a b => Sys2Proof.Machine.execFadd d a b s
  | .fsub d a b => Sys2Proof.Machine.execFsub d a b s
  | .fmul d a b => Sys2Proof.Machine.execFmul d a b s
  | .fsqr d a => Sys2Proof.Machine.execFsqr d a s
  | .fneg d a => Sys2Proof.Machine.execFneg d a s
  | .finv d a => Sys2Proof.Machine.execFinv d a s
  | .fcswap a b c => Sys2Proof.Machine.execFcswap a b c s
  | .fld d k => Sys2Proof.Machine.execFld d k s
  | .fst k a => Sys2Proof.Machine.execFst k a s

end Sys2Proof.Machine
end

