-- ==== Sys2Proof/Machine/Flags.lean ====
section
/-! DEFINITION. The status and control bits. The block has no condition codes, and no command sets a flag about its result
(spec/10_state.md R29); its bits are those of STATUS, ERRCAUSE and CTRL (R32, R33, R36), from which `irq` is computed
(spec/60_exceptions.md R180). -/

namespace Sys2Proof.Machine

open Sys2Proof

/-- The unit is BUSY (R24). -/
def UnitState.isBusy : UnitState → Bool
  | .idle => false
  | .busy _ _ => true

/-- STATUS.BUSY (R32). -/
def State.busy (s : State) : Bool := s.unit.isBusy

/-- STATUS as the host reads it: BUSY bit 0, DONE bit 1, ERR bit 2, the rest zero (R32). -/
def State.statusWord (s : State) : Word :=
  BitVec.ofNat 32 (s.busy.toNat + 2 * s.done.toNat + 4 * s.err.toNat)

/-- ERRCAUSE as the host reads it: CAUSE in bits 3:0, the rest zero (R33). -/
def State.errCauseWord (s : State) : Word := s.errCause.setWidth 32

/-- CTRL as the host reads it: `zext_32(IE_ERR·2 + IE_DONE)`; SRST reads 0 (R36). -/
def State.ctrlWord (s : State) : Word := BitVec.ofNat 32 (s.ieErr.toNat * 2 + s.ieDone.toNat)

/-- A write of w to STATUS: w[1] = 1 clears DONE, w[2] = 1 clears the error record, the other bits are ignored (R32). -/
def State.writeStatus (w : Word) (s : State) : State :=
  let s := if w[1] then s.withDone false else s
  if w[2] then s.clearError else s

/-- A write of w to CTRL: w[2] = 1 resets the block, else w[0] and w[1] are the enables (R36; spec/70 R201). -/
def State.writeCtrl (w : Word) (s : State) : State :=
  if w[2] then s.resetBlock else s.withEnables w[0] w[1]

/-- The interrupt output, active high and level-sensitive (R180). -/
def State.irq (s : State) : Bool := (s.done && s.ieDone) || (s.err && s.ieErr)

/-- The level the block drives on a host interrupt input: `irq` on FAU_IRQ_LINE, nothing on any other (R8, R180). -/
def State.hostIrqInput (s : State) (line : Nat) : Bool := decide (line = Config.fauIrqLine) && s.irq

end Sys2Proof.Machine
end

