-- ==== Sys2Proof/Machine/Completion.lean ====
section
/-! DEFINITION. The unit: acceptance of a command word (spec/60_exceptions.md R170) and completion of the command it holds
(spec/10_state.md R25, R27). -/

namespace Sys2Proof.Machine

open Sys2Proof

/-- OnCmdWrite(w), one indivisible step (R170): discarded while ERR is set (R174); CMD_BUSY while BUSY; otherwise DONE is
cleared and the word is refused by cause or accepted (R25). The order is that of R182. -/
def State.onCmdWrite (w : Word) (s : State) : State :=
  if s.err then s
  else
    match s.unit with
    | .busy _ _ => s.recordError .cmdBusy w
    | .idle =>
      match decode w with
      | .error e => (s.withDone false).recordError e w
      | .ok i => (s.withDone false).withUnit (.busy w (latencyOf i))

/-- The completion of the command word `w`, one indivisible step (R27): Exec, then IDLE and DONE. The fault is for words
that are never accepted (notes/assumptions/7). -/
def State.complete (w : Word) (s : State) : Host.Outcome State Fault Refusal :=
  match decode w with
  | .error _ => .fault (.pendNotACommand w)
  | .ok i =>
    match exec i s with
    | .next t => .next t.finish
    | .fault r => .fault r
    | .refused r => .refused r

/-- The clock runs on with nothing arriving until the command the unit holds completes; an IDLE unit stays as it is
(R27, R203; notes/assumptions/1). -/
def State.letComplete (s : State) : Host.Outcome State Fault Refusal :=
  match s.unit with
  | .idle => .next s
  | .busy w _ => s.complete w

/-- One clock cycle: a BUSY unit has one cycle less to go, and completes when none is left (R25, R27). -/
def State.clockTick (s : State) : Host.Outcome State Fault Refusal :=
  match s.unit with
  | .idle => .next s
  | .busy w n => if n ≤ 1 then s.complete w else .next (s.withUnit (.busy w (n - 1)))

end Sys2Proof.Machine
end

