-- ==== Sys2Proof/Machine/Window.lean ====
section
/-! DEFINITION. The host window (spec/20_memory.md): its map, reads and writes, bus errors and the stall. -/

namespace Sys2Proof.Machine

open Sys2Proof

/-- The offset of a host address inside the window; none for an address outside it, which does not reach the block (R50). -/
def windowOffset (addr : Nat) : Option Offset :=
  if Config.fauBase ≤ addr ∧ addr < Config.fauBase + Config.windowBytes then
    some (BitVec.ofNat 12 (addr - Config.fauBase))
  else none

/-- The host address of an offset, FAU_BASE + offset (R50). -/
def hostAddress (o : Offset) : Nat := Config.fauBase + o.toNat

/-- What stands at an offset (R50; spec/10_state.md R30). -/
inductive WindowTarget where
  | opram
  | cmd
  | status
  | errcause
  | errcmd
  | ctrl
  | id
  | reserved
  deriving DecidableEq, Repr

/-- The map of the window (R50, R52; spec/10_state.md R30). -/
def windowTarget (o : Offset) : WindowTarget :=
  if o.toNat < 0x200 then .opram
  else if o.toNat = 0x200 then .cmd
  else if o.toNat = 0x204 then .status
  else if o.toNat = 0x208 then .errcause
  else if o.toNat = 0x20C then .errcmd
  else if o.toNat = 0x210 then .ctrl
  else if o.toNat = 0x214 then .id
  else .reserved

/-- The word a read of the offset returns (R56; spec/10_state.md R30 to R36; R52). No read has a side effect (R61). -/
def State.windowRead (s : State) (o : Offset) : Word :=
  match windowTarget o with
  | .opram => BitVec.ofNat 32 (s.opram.read o.toNat 4)
  | .cmd => 0x00000000
  | .status => s.statusWord
  | .errcause => s.errCauseWord
  | .errcmd => s.errCmd
  | .ctrl => s.ctrlWord
  | .id => Config.idWord
  | .reserved => 0x00000000

/-- The effect of writing w at the offset (R56, R52; spec/10_state.md R31, R32, R36, R37). -/
def State.windowWrite (o : Offset) (w : Word) (s : State) : State :=
  match windowTarget o with
  | .opram => s.withOpram (s.opram.write o.toNat 4 w.toNat)
  | .cmd => s.onCmdWrite w
  | .status => s.writeStatus w
  | .errcause => s
  | .errcmd => s
  | .ctrl => s.writeCtrl w
  | .id => s
  | .reserved => s

/-- A 32-bit access at a multiple of 4; any other gets a bus error (R54, R55). -/
def Access.legal (a : Access) : Bool := a.bytes == 4 && a.offset.toNat % 4 == 0

/-- The answer to an access that is not legal: a bus error; a read returns 0 as data (R55). -/
def Access.busErrorResponse (a : Access) : Response :=
  match a.kind with
  | .read => ⟨some 0x00000000, true⟩
  | .write _ => ⟨none, true⟩

/-- One access, performed whole (R60, R63): its effect and its answer. -/
def State.perform (a : Access) (s : State) : State :=
  if a.legal then
    match a.kind with
    | .read => s.respond ⟨some (s.windowRead a.offset), false⟩
    | .write w => (s.windowWrite a.offset w).respond ⟨none, false⟩
  else s.respond a.busErrorResponse

/-- The access does not complete until the unit is IDLE: it names an OPRAM offset and the unit is BUSY (R57). Accesses that
will get a bus error stall too (notes/assumptions/4). -/
def State.mustStall (a : Access) (s : State) : Bool := s.busy && decide (windowTarget a.offset = .opram)

/-- An access arrives: it is held (R57) or performed. -/
def State.arrive (a : Access) (s : State) : State :=
  if s.mustStall a then s.withStalled (some a) else s.perform a

/-- The held access that can complete now: the unit is IDLE (R57). -/
def State.heldAccess (s : State) : Option Access := if s.busy then none else s.stalled

/-- The held access completes against the state that lifted the hold (R57). -/
def State.releaseHeld (a : Access) (s : State) : State := (s.withStalled none).perform a

/-- The answer to an access made while `rst` is asserted: not defined, so free (R200, U2; notes/assumptions/5). -/
def freeResponse (n : Nat) (a : Access) : Response :=
  match a.kind with
  | .read => ⟨some (Config.freeWord n), Config.freeBit n⟩
  | .write _ => ⟨none, Config.freeBit n⟩

/-- The reset input is asserted and released (R200, R184). An access made meanwhile is lost and gets a free answer (U2). It
is answered here also when another access is held, before that one: the spec leaves the order of the two answers open (DESIGN
CHOICE, notes/assumptions/16). -/
def State.hardReset (during : Option Access) (s : State) : State :=
  match during with
  | none => s.resetBlock
  | some a => (s.resetBlock.respond (freeResponse s.freeIndex a)).withFreeIndex (s.freeIndex + 1)

end Sys2Proof.Machine
end

