-- ==== Sys2Proof/Machine/HostMoves.lean ====
section
/-! DEFINITION. What the block does with the next move that reaches it (spec/20_memory.md R57, R63; spec/70 R200, R222). -/

namespace Sys2Proof.Machine

open Sys2Proof

/-- The move `m` is at the head of `inbox` and no held access can complete. While an access is held the host's bus is
taken, so its next access waits until the command the unit holds completes (R57, R63; notes/assumptions/10). The one access
that does not wait is the one an `rst` move carries: the spec does not order its answer and the held access's, and the model
answers it first, within the reset (DESIGN CHOICE, notes/assumptions/16). -/
def State.takeMove (m : HostMove) (rest : List HostMove) (s : State) : Host.Outcome State Fault Refusal :=
  match m with
  | .tick => (s.withInbox rest).clockTick
  | .awaitIdle => (s.withInbox rest).letComplete
  | .rst during => .next ((s.withInbox rest).hardReset during)
  | .access a => if s.stalled.isSome then s.letComplete else .next ((s.withInbox rest).arrive a)

/-- The unit holds the accepted command word `w`, with one cycle to go, and that cycle is the next thing to happen. -/
def State.holdCommand (w : Word) (s : State) : State :=
  (s.withUnit (.busy w 1)).withInbox (.tick :: s.inbox)

end Sys2Proof.Machine
end

