-- ==== Sys2Proof/Machine/Step.lean ====
section
/-! DEFINITION. One step of the machine (spec/10_state.md R27; spec/20_memory.md R57, R63; notes/assumptions/1): a held
access completes, or the next move reaches the block, or, with no move left, the command the unit holds completes. -/

namespace Sys2Proof.Machine

open Sys2Proof

/-- One step. -/
def step (s : State) : Host.Outcome State Fault Refusal :=
  match s.heldAccess with
  | some a => .next (s.releaseHeld a)
  | none =>
    match s.inbox with
    | [] => s.letComplete
    | m :: rest => s.takeMove m rest

/-- The word stands where the next step takes its command from: the unit holds it as accepted, and it completes in the very
next step (notes/assumptions/13). -/
def State.withFetchWord (s : State) (nbits w : Nat) : State :=
  s.holdCommand (BitVec.ofNat 32 (w % 2 ^ nbits))

end Sys2Proof.Machine
end

