-- ==== Sys2Proof/Machine/Assembler.lean ====
section
/-! DEFINITION. The assembler syntax (spec/30_encoding.md R89) and the pseudo-instructions (R90): a line of text to a
statement, a statement to commands, commands to words, and a command back to text. -/

namespace Sys2Proof.Machine

open Sys2Proof

/-- An operand as written: `f<n>`, `s<n>` or a bare number (R89). -/
inductive Operand where
  | freg (n : Nat)
  | slot (n : Nat)
  | bit (n : Nat)
  deriving DecidableEq, Repr

/-- The value of a decimal digit. -/
def digitValue (c : Char) : Option Nat := if '0' ≤ c ∧ c ≤ '9' then some (c.toNat - '0'.toNat) else none

/-- A decimal number of one or two digits, with no leading zero: f0 to f15, s0 to s15, 0 and 1 need no more (R89). -/
def parseNumber : List Char → Option Nat
  | [c] => digitValue c
  | [c, d] => if c = '0' then none else (digitValue c).bind fun x => (digitValue d).map fun y => 10 * x + y
  | _ => none

/-- One operand (R89). -/
def parseOperand : List Char → Option Operand
  | [] => none
  | c :: cs =>
    if c = 'f' then (parseNumber cs).map .freg
    else if c = 's' then (parseNumber cs).map .slot
    else (parseNumber (c :: cs)).map .bit

/-- The pieces of a text between its separators `, ` (R89). -/
def splitOperands : List Char → List (List Char)
  | [] => [[]]
  | ',' :: ' ' :: cs => [] :: splitOperands cs
  | c :: cs =>
    match splitOperands cs with
    | [] => [[c]]
    | o :: os => (c :: o) :: os

/-- The text without the spaces at its end (notes/assumptions/15). -/
def dropTrailingSpaces : List Char → List Char
  | [] => []
  | c :: cs =>
    match dropTrailingSpaces cs with
    | [] => if c = ' ' then [] else [c]
    | d :: ds => c :: d :: ds

/-- The statement a mnemonic and its operands make (R83's last column, R89, R90). -/
def stmtOf (name : List Char) (operands : List Operand) : Option Stmt :=
  match operands with
  | [] => if name = "fnop".toList then some .fnop else none
  | [.freg d] => if name = "fzero".toList then some (.fzero d) else none
  | [.freg d, .freg a] =>
    if name = "fsqr".toList then some (.fsqr d a)
    else if name = "fneg".toList then some (.fneg d a)
    else if name = "finv".toList then some (.finv d a)
    else if name = "fswap".toList then some (.fswap d a)
    else if name = "fdbl".toList then some (.fdbl d a)
    else none
  | [.freg d, .slot k] => if name = "fld".toList then some (.fld d k) else none
  | [.slot k, .freg a] => if name = "fst".toList then some (.fst k a) else none
  | [.freg d, .freg a, .freg b] =>
    if name = "fadd".toList then some (.fadd d a b)
    else if name = "fsub".toList then some (.fsub d a b)
    else if name = "fmul".toList then some (.fmul d a b)
    else none
  | [.freg a, .freg b, .bit c] => if name = "fcswap".toList then some (.fcswap a b c) else none
  | [.freg d, .freg a, .slot k] => if name = "fmov".toList then some (.fmov d a k) else none
  | _ => none

/-- The text of a line before its comment, which runs from `;` to the end (R89). -/
def uncomment (line : List Char) : List Char := dropTrailingSpaces (line.takeWhile (· ≠ ';'))

/-- A line of one statement: lower-case mnemonic, a space, operands separated by `, ` (R89). -/
def parseLine (line : List Char) : Option Stmt :=
  let text := uncomment line
  let name := text.takeWhile (· ≠ ' ')
  match text.dropWhile (· ≠ ' ') with
  | [] => stmtOf name []
  | _ :: rest => ((splitOperands rest).mapM parseOperand).bind (stmtOf name)

/-- A register operand (R89). -/
def regOf (n : Nat) : Option Reg := if h : n < Config.nfreg then some ⟨n, h⟩ else none

/-- A slot operand (R89). -/
def slotOf (n : Nat) : Option Slot := if h : n < Config.nslot then some ⟨n, h⟩ else none

/-- A swap condition (R89). -/
def condOf (n : Nat) : Option Bool := if n = 0 then some false else if n = 1 then some true else none

/-- The commands of a statement; a pseudo-instruction expands as R90 says. None where the statement is not well-formed. -/
def expandStmt : Stmt → Option (List Instr)
  | .fadd d a b => do some [.fadd (← regOf d) (← regOf a) (← regOf b)]
  | .fsub d a b => do some [.fsub (← regOf d) (← regOf a) (← regOf b)]
  | .fmul d a b => do some [.fmul (← regOf d) (← regOf a) (← regOf b)]
  | .fsqr d a => do some [.fsqr (← regOf d) (← regOf a)]
  | .fneg d a => do some [.fneg (← regOf d) (← regOf a)]
  | .finv d a => do some [.finv (← regOf d) (← regOf a)]
  | .fcswap a b c => do some [.fcswap (← regOf a) (← regOf b) (← condOf c)]
  | .fld d s => do some [.fld (← regOf d) (← slotOf s)]
  | .fst s a => do some [.fst (← slotOf s) (← regOf a)]
  | .fnop => some [.fcswap 0 0 false]
  | .fswap a b => do some [.fcswap (← regOf a) (← regOf b) true]
  | .fdbl d a => do some [.fadd (← regOf d) (← regOf a) (← regOf a)]
  | .fzero d => do some [.fsub (← regOf d) 0 0]
  | .fmov d a k => do some [.fst (← slotOf k) (← regOf a), .fld (← regOf d) (← slotOf k)]

/-- The words of a line of text. -/
def assembleLine (line : List Char) : Option (List Word) :=
  ((parseLine line).bind expandStmt).map fun is => is.map encode

/-- A number below 100 in decimal, with no leading zero. -/
def numberText (n : Nat) : List Char :=
  if n < 10 then [Nat.digitChar n] else [Nat.digitChar (n / 10), Nat.digitChar (n % 10)]

/-- `f<n>` (R89). -/
def regText (r : Reg) : List Char := 'f' :: numberText r.val

/-- `s<n>` (R89). -/
def slotText (k : Slot) : List Char := 's' :: numberText k.val

/-- The swap condition as written (R89). -/
def condText (c : Bool) : List Char := numberText c.toNat

/-- Operands separated by `, ` (R89). -/
def joinOperands : List (List Char) → List Char
  | [] => []
  | [o] => o
  | o :: os => o ++ ',' :: ' ' :: joinOperands os

/-- A mnemonic, a space and operands (R89). -/
def lineText (name : List Char) (operands : List (List Char)) : List Char := name ++ ' ' :: joinOperands operands

/-- The text of a command (R83's last column, R89). -/
def instrText : Instr → List Char
  | .fadd d a b => lineText "fadd".toList [regText d, regText a, regText b]
  | .fsub d a b => lineText "fsub".toList [regText d, regText a, regText b]
  | .fmul d a b => lineText "fmul".toList [regText d, regText a, regText b]
  | .fsqr d a => lineText "fsqr".toList [regText d, regText a]
  | .fneg d a => lineText "fneg".toList [regText d, regText a]
  | .finv d a => lineText "finv".toList [regText d, regText a]
  | .fcswap a b c => lineText "fcswap".toList [regText a, regText b, condText c]
  | .fld d s => lineText "fld".toList [regText d, slotText s]
  | .fst s a => lineText "fst".toList [slotText s, regText a]

end Sys2Proof.Machine
end

