-- ==== Sys2Proof/Safety.lean ====
section
/-! DEFINITION. What a good state of the block is, and when a run ends (spec/70_reset_and_hazards.md R223). -/

namespace Sys2Proof.Machine

open Sys2Proof

/-- The invariant of the block: what the rules promise of every state a run reaches. -/
structure Inv (s : State) : Prop where
  /-- OPRAM is in its canonical form. -/
  opram_wf : s.opram.wf = true
  /-- A BUSY unit holds a command that was accepted, with 1 to LAT_op cycles to go (R25, R170). -/
  holds_command : ∀ w n, s.unit = .busy w n → ∃ i, decode w = .ok i ∧ 1 ≤ n ∧ n ≤ latencyOf i
  /-- DONE is 0 while the unit is BUSY (R32, R170). -/
  busy_not_done : s.busy = true → s.done = false
  /-- With no error recorded, CAUSE and ERRCMD are 0 (R33, R34). -/
  no_error_no_record : s.err = false → s.errCause = 0 ∧ s.errCmd = 0
  /-- A recorded error has one of the three causes (R171). -/
  error_has_cause : s.err = true → s.errCause = 1 ∨ s.errCause = 2 ∨ s.errCause = 3
  /-- CAUSE 1 and 2 are the decoder's answers for ERRCMD (R171). -/
  cause_describes_word : (s.errCause = 1 → decode s.errCmd = .error .illegalOpcode) ∧
    (s.errCause = 2 → decode s.errCmd = .error .reservedField)
  /-- Only an access to OPRAM is held (R57). -/
  holds_opram_access : ∀ a, s.stalled = some a → windowTarget a.offset = .opram

/-- Nothing but field registers and OPRAM differs: the frame of every command (spec/40_field_ops.md R100). -/
structure SameControl (s t : State) : Prop where
  unit : t.unit = s.unit
  done : t.done = s.done
  err : t.err = s.err
  errCause : t.errCause = s.errCause
  errCmd : t.errCmd = s.errCmd
  ieDone : t.ieDone = s.ieDone
  ieErr : t.ieErr = s.ieErr
  stalled : t.stalled = s.stalled
  inbox : t.inbox = s.inbox
  responses : t.responses = s.responses
  freeIndex : t.freeIndex = s.freeIndex

/-- `k` steps of the machine. -/
def runFor (k : Nat) (s : State) : Host.Outcome State Fault Refusal := Sys2Proof.core.run k s

/-- The host has made its last access and the unit is IDLE (R223). -/
def EndOfRun (s : State) : Prop := s.inbox = [] ∧ s.stalled = none ∧ s.busy = false

/-- The observable result of a run: the OPRAM contents, STATUS, ERRCAUSE and ERRCMD (R223). -/
def observable (s : State) : Memory × Word × Word × Word :=
  (s.opram, s.statusWord, s.errCauseWord, s.errCmd)

/-- A run ended with no error (R223). -/
def EndsWithoutError (s : State) : Prop := EndOfRun s ∧ s.err = false

end Sys2Proof.Machine
end

