-- ==== Sys2Proof/Certificates/Slice0/Obligations.lean ====
section
/-! DEFINITION. The statements for the provers, from the numbered rules of spec/. -/

namespace Sys2Proof.Spec

open Sys2Proof Sys2Proof.Machine

/-- The host writes the word w at an offset (spec/20_memory.md R54). -/
def writeTo (o : Offset) (w : Word) : HostMove := .access ⟨o, 4, .write w⟩

/-- The host reads the word at an offset (R54). -/
def readFrom (o : Offset) : HostMove := .access ⟨o, 4, .read⟩

/-- The frame of a command that writes field registers: the registers `d` does not hold of, every byte of OPRAM and the
control state are as before. -/
def ChangesOnlyRegisters (d : Reg → Prop) (s t : State) : Prop :=
  (∀ i, ¬ d i → t.readF i = s.readF i) ∧ (∀ a, t.opram.readByte a = s.opram.readByte a) ∧ SameControl s t

/-- What completion adds to Exec: mode <- IDLE, pend <- none, STATUS.DONE <- 1 (spec/10_state.md R27). -/
def thenCompleted : Host.Outcome State Fault Refusal → Host.Outcome State Fault Refusal
  | .next t => .next { t with unit := .idle, done := true }
  | .fault r => .fault r
  | .refused r => .refused r

/-- A bit that must be zero is set in a word with a legal OP (spec/30_encoding.md R87): RSV always; C except in FCSWAP; B in
FSQR, FNEG and FINV; D in FCSWAP and FST; A in FLD. -/
def ReservedBitSet (w : Word) : Prop :=
  w.toNat / 2 ^ 21 ≠ 0 ∨
  (w.toNat % 256 ≠ 7 ∧ w.toNat / 2 ^ 20 % 2 ≠ 0) ∨
  ((w.toNat % 256 = 4 ∨ w.toNat % 256 = 5 ∨ w.toNat % 256 = 6) ∧ w.toNat / 2 ^ 16 % 16 ≠ 0) ∨
  ((w.toNat % 256 = 7 ∨ w.toNat % 256 = 9) ∧ w.toNat / 2 ^ 8 % 16 ≠ 0) ∨
  (w.toNat % 256 = 8 ∧ w.toNat / 2 ^ 12 % 16 ≠ 0)

/-- The next move is a reset: the reset input, or a CTRL write with SRST = 1 (spec/70_reset_and_hazards.md R200, R201). -/
def ResetArrives (s : State) : Prop :=
  ∃ m rest, s.inbox = m :: rest ∧ ((∃ w : Word, m = writeTo 0x210 w ∧ w[2] = true) ∨ ∃ during, m = .rst during)

/-- The step from s to t is the completion of the held command i, Exec and what R27 adds (spec/10_state.md R27). -/
def CompletesHeld (s t : State) (i : Instr) : Prop :=
  ∃ w n, s.unit = .busy w n ∧ decode w = .ok i ∧ thenCompleted (exec i (s.withInbox t.inbox)) = .next t

/-- Two states a host that sees only timing, status and bus errors cannot tell apart: they differ in field registers, OPRAM
and the data of the answers to reads only. -/
structure TimingTwin (s t : State) : Prop where
  unit : t.unit = s.unit
  done : t.done = s.done
  err : t.err = s.err
  errCause : t.errCause = s.errCause
  errCmd : t.errCmd = s.errCmd
  ieDone : t.ieDone = s.ieDone
  ieErr : t.ieErr = s.ieErr
  stalled : t.stalled = s.stalled
  inbox : t.inbox = s.inbox
  answers : t.responses.map (fun r => (r.data.isSome, r.busError)) = s.responses.map fun r => (r.data.isSome, r.busError)
  freeIndex : t.freeIndex = s.freeIndex

end Sys2Proof.Spec

open Sys2Proof Sys2Proof.Machine Sys2Proof.Spec

/-! ### Reset -/

/-- R23, R58, with the rest of R200's table: the state after reset. -/
def Obligations.ResetStateIsAsSpecified : Prop :=
  (∀ i : Reg, (State.reset.readF i).val = 0) ∧
  (∀ a, a < 512 → State.reset.opram.readByte a = 0x00) ∧
  State.reset.unit = .idle ∧
  State.reset.statusWord = 0x00000000 ∧ State.reset.errCauseWord = 0x00000000 ∧ State.reset.errCmd = 0x00000000 ∧
  State.reset.ctrlWord = 0x00000000 ∧ State.reset.windowRead 0x214 = 0xED250100 ∧ State.reset.irq = false

/-- R201, R202: a reset by the reset input, and a CTRL write with SRST = 1, leave the reset state whatever the unit was
doing (no DONE, no error recorded); SRST reads as 0. Only what is outside the block stays. -/
def Obligations.ResetAbandonsTheCommandAndClears : Prop :=
  (∀ (s : State) (rest : List HostMove), s.heldAccess = none → s.inbox = .rst none :: rest →
    step s = .next { State.reset with
      stalled := s.stalled, inbox := rest, responses := s.responses, freeIndex := s.freeIndex }) ∧
  (∀ (s : State) (w : Word) (rest : List HostMove), w[2] = true → s.stalled = none → s.inbox = writeTo 0x210 w :: rest →
    step s = .next { State.reset with
      stalled := none, inbox := rest, responses := ⟨none, false⟩ :: s.responses, freeIndex := s.freeIndex }) ∧
  (∀ s : State, s.ctrlWord[2] = false)

/-- U2 of spec/93 and notes/assumptions/5 (the model's choice among the treatments U2 allows): an access made while `rst` is
asserted has no effect and some answer; the block ends in its reset state. Where another access is held, that it is still
held after this answer is the model's choice too (notes/assumptions/16, DESIGN CHOICE). -/
def Obligations.AccessDuringRstIsLost : Prop :=
  ∀ (s : State) (a : Access) (rest : List HostMove), s.heldAccess = none → s.inbox = .rst (some a) :: rest →
    ∃ r : Response, step s = .next { State.reset with
      stalled := s.stalled, inbox := rest, responses := r :: s.responses, freeIndex := s.freeIndex + 1 }

/-! ### The commands: encoding, syntax, result and frame of each -/

/-- R102, FADD. -/
def Obligations.FaddAddsModP : Prop :=
  (∀ (d a b : Reg) (s : State), ∃ t, exec (.fadd d a b) s = .next t ∧
    (t.readF d).val = ((s.readF a).val + (s.readF b).val) % (2 ^ 255 - 19) ∧ ChangesOnlyRegisters (· = d) s t) ∧
  (∀ w : Word, w &&& 0xFFF000FF = 0x00000001 → ∃ d a b : Reg, decode w = .ok (.fadd d a b) ∧
    d.val = w.toNat / 2 ^ 8 % 16 ∧ a.val = w.toNat / 2 ^ 12 % 16 ∧ b.val = w.toNat / 2 ^ 16 % 16) ∧
  (∀ d a b : Reg, encode (.fadd d a b) &&& 0xFFF000FF = 0x00000001 ∧
    assembleLine (lineText "fadd".toList [regText d, regText a, regText b]) = some [encode (.fadd d a b)])

/-- R103, FSUB: F[A] − F[B], the least non-negative residue. -/
def Obligations.FsubSubtractsModP : Prop :=
  (∀ (d a b : Reg) (s : State), ∃ t, exec (.fsub d a b) s = .next t ∧
    ((t.readF d).val : Int) = (((s.readF a).val : Int) - ((s.readF b).val : Int)) % (2 ^ 255 - 19) ∧
    ChangesOnlyRegisters (· = d) s t) ∧
  (∀ w : Word, w &&& 0xFFF000FF = 0x00000002 → ∃ d a b : Reg, decode w = .ok (.fsub d a b) ∧
    d.val = w.toNat / 2 ^ 8 % 16 ∧ a.val = w.toNat / 2 ^ 12 % 16 ∧ b.val = w.toNat / 2 ^ 16 % 16) ∧
  (∀ d a b : Reg, encode (.fsub d a b) &&& 0xFFF000FF = 0x00000002 ∧
    assembleLine (lineText "fsub".toList [regText d, regText a, regText b]) = some [encode (.fsub d a b)])

/-- R104, FMUL. -/
def Obligations.FmulMultipliesModP : Prop :=
  (∀ (d a b : Reg) (s : State), ∃ t, exec (.fmul d a b) s = .next t ∧
    (t.readF d).val = ((s.readF a).val * (s.readF b).val) % (2 ^ 255 - 19) ∧ ChangesOnlyRegisters (· = d) s t) ∧
  (∀ w : Word, w &&& 0xFFF000FF = 0x00000003 → ∃ d a b : Reg, decode w = .ok (.fmul d a b) ∧
    d.val = w.toNat / 2 ^ 8 % 16 ∧ a.val = w.toNat / 2 ^ 12 % 16 ∧ b.val = w.toNat / 2 ^ 16 % 16) ∧
  (∀ d a b : Reg, encode (.fmul d a b) &&& 0xFFF000FF = 0x00000003 ∧
    assembleLine (lineText "fmul".toList [regText d, regText a, regText b]) = some [encode (.fmul d a b)])

/-- R105, FSQR, which always gives what FMUL of the register by itself gives. -/
def Obligations.FsqrSquaresModP : Prop :=
  (∀ (d a : Reg) (s : State), ∃ t, exec (.fsqr d a) s = .next t ∧
    (t.readF d).val = ((s.readF a).val * (s.readF a).val) % (2 ^ 255 - 19) ∧ ChangesOnlyRegisters (· = d) s t ∧
    exec (.fmul d a a) s = .next t) ∧
  (∀ w : Word, w &&& 0xFFFF00FF = 0x00000004 → ∃ d a : Reg, decode w = .ok (.fsqr d a) ∧
    d.val = w.toNat / 2 ^ 8 % 16 ∧ a.val = w.toNat / 2 ^ 12 % 16) ∧
  (∀ d a : Reg, encode (.fsqr d a) &&& 0xFFFF00FF = 0x00000004 ∧
    assembleLine (lineText "fsqr".toList [regText d, regText a]) = some [encode (.fsqr d a)])

/-- R106, FNEG: the least non-negative residue of −F[A]; twice, it gives F[A] back; it gives what FSUB from a register that
holds 0 gives. -/
def Obligations.FnegNegatesModP : Prop :=
  (∀ (d a : Reg) (s : State), ∃ t, exec (.fneg d a) s = .next t ∧
    ((t.readF d).val : Int) = (0 - ((s.readF a).val : Int)) % (2 ^ 255 - 19) ∧ ChangesOnlyRegisters (· = d) s t ∧
    (∃ u, exec (.fneg d d) t = .next u ∧ u.readF d = s.readF a) ∧
    ∀ z : Reg, (s.readF z).val = 0 → exec (.fsub d z a) s = .next t) ∧
  (∀ w : Word, w &&& 0xFFFF00FF = 0x00000005 → ∃ d a : Reg, decode w = .ok (.fneg d a) ∧
    d.val = w.toNat / 2 ^ 8 % 16 ∧ a.val = w.toNat / 2 ^ 12 % 16) ∧
  (∀ d a : Reg, encode (.fneg d a) &&& 0xFFFF00FF = 0x00000005 ∧
    assembleLine (lineText "fneg".toList [regText d, regText a]) = some [encode (.fneg d a)])

/-- R107, FINV: the power p − 2, also for 0; for x ≠ 0 the unique inverse; the result is 0 exactly when the input is; twice,
it gives F[A] back. -/
def Obligations.FinvInvertsModP : Prop :=
  (∀ (d a : Reg) (s : State), ∃ t, exec (.finv d a) s = .next t ∧
    (t.readF d).val = (s.readF a).val ^ (2 ^ 255 - 21) % (2 ^ 255 - 19) ∧ ChangesOnlyRegisters (· = d) s t ∧
    ((s.readF a).val ≠ 0 → ∀ y : FieldValue, (s.readF a).val * y.val % (2 ^ 255 - 19) = 1 ↔ y = t.readF d) ∧
    ((t.readF d).val = 0 ↔ (s.readF a).val = 0) ∧
    ∃ u, exec (.finv d d) t = .next u ∧ u.readF d = s.readF a) ∧
  (∀ w : Word, w &&& 0xFFFF00FF = 0x00000006 → ∃ d a : Reg, decode w = .ok (.finv d a) ∧
    d.val = w.toNat / 2 ^ 8 % 16 ∧ a.val = w.toNat / 2 ^ 12 % 16) ∧
  (∀ d a : Reg, encode (.finv d a) &&& 0xFFFF00FF = 0x00000006 ∧
    assembleLine (lineText "finv".toList [regText d, regText a]) = some [encode (.finv d a)])

/-- R141, FCSWAP: with C = 1 the two registers exchange their old values, also when they are one register; with C = 0
nothing is written. -/
def Obligations.FcswapSwapsWhenConditionIsOne : Prop :=
  (∀ (a b : Reg) (s : State), ∃ t, exec (.fcswap a b true) s = .next t ∧
    t.readF a = s.readF b ∧ t.readF b = s.readF a ∧ ChangesOnlyRegisters (fun i => i = a ∨ i = b) s t) ∧
  (∀ (a b : Reg) (s : State), exec (.fcswap a b false) s = .next s) ∧
  (∀ w : Word, w &&& 0xFFE00FFF = 0x00000007 → ∃ (a b : Reg) (c : Bool), decode w = .ok (.fcswap a b c) ∧
    a.val = w.toNat / 2 ^ 12 % 16 ∧ b.val = w.toNat / 2 ^ 16 % 16 ∧ c.toNat = w.toNat / 2 ^ 20 % 2) ∧
  (∀ (a b : Reg) (c : Bool), encode (.fcswap a b c) &&& 0xFFE00FFF = 0x00000007 ∧
    assembleLine (lineText "fcswap".toList [regText a, regText b, condText c]) = some [encode (.fcswap a b c)])

/-- R150, FLD: the slot's 32 bytes as a little-endian integer, bit 255 ignored, reduced mod p. OPRAM does not change. -/
def Obligations.FldLoadsTheSlotModP : Prop :=
  (∀ (d : Reg) (k : Slot) (s : State), ∃ t, exec (.fld d k) s = .next t ∧
    (t.readF d).val =
      (∑ j ∈ Finset.range 32, (s.opram.readByte (32 * k.val + j)).toNat * 2 ^ (8 * j)) % 2 ^ 255 % (2 ^ 255 - 19) ∧
    ChangesOnlyRegisters (· = d) s t) ∧
  (∀ w : Word, w &&& 0xFFF0F0FF = 0x00000008 → ∃ (d : Reg) (k : Slot), decode w = .ok (.fld d k) ∧
    d.val = w.toNat / 2 ^ 8 % 16 ∧ k.val = w.toNat / 2 ^ 16 % 16) ∧
  (∀ (d : Reg) (k : Slot), encode (.fld d k) &&& 0xFFF0F0FF = 0x00000008 ∧
    assembleLine (lineText "fld".toList [regText d, slotText k]) = some [encode (.fld d k)])

/-- R160, FST: byte k of the slot is (v >> 8k) and 0xFF, byte 31 bit 7 is 0, and only the slot's 32 bytes change. OPRAM is
in its canonical form (an invariant: `Obligations.StepKeepsTheInvariant`). -/
def Obligations.FstStoresTheCanonicalBytes : Prop :=
  (∀ (k : Slot) (a : Reg) (s : State), s.opram.wf = true → ∃ t, exec (.fst k a) s = .next t ∧
    slotAddress k = 32 * k.val ∧
    (∀ j, j < 32 → t.opram.readByte (slotAddress k + j) = BitVec.ofNat 8 ((s.readF a).val >>> (8 * j))) ∧
    (t.opram.readByte (slotAddress k + 31))[7] = false ∧
    (∀ x, x < slotAddress k ∨ slotAddress k + 32 ≤ x → t.opram.readByte x = s.opram.readByte x) ∧
    (∀ i, t.readF i = s.readF i) ∧ SameControl s t) ∧
  (∀ w : Word, w &&& 0xFFF00FFF = 0x00000009 → ∃ (k : Slot) (a : Reg), decode w = .ok (.fst k a) ∧
    k.val = w.toNat / 2 ^ 16 % 16 ∧ a.val = w.toNat / 2 ^ 12 % 16) ∧
  (∀ (k : Slot) (a : Reg), encode (.fst k a) &&& 0xFFF00FFF = 0x00000009 ∧
    assembleLine (lineText "fst".toList [slotText k, regText a]) = some [encode (.fst k a)])

/-- R101: no operand value makes a command fail. Exec answers a next state for every command and every state, and records
no error. -/
def Obligations.NoOperandMakesACommandFail : Prop :=
  ∀ (i : Instr) (s : State), ∃ t, exec i s = .next t ∧ SameControl s t

/-- R109: the commands obey the field laws. The first line ties the operations named in the laws to the commands. -/
def Obligations.CommandsObeyTheFieldLaws : Prop :=
  (∀ (d a b : Reg) (s : State),
    exec (.fadd d a b) s = .next (s.writeF d (fieldAdd (s.readF a) (s.readF b))) ∧
    exec (.fsub d a b) s = .next (s.writeF d (fieldSub (s.readF a) (s.readF b))) ∧
    exec (.fmul d a b) s = .next (s.writeF d (fieldMul (s.readF a) (s.readF b))) ∧
    exec (.fneg d a) s = .next (s.writeF d (fieldNeg (s.readF a))) ∧
    exec (.finv d a) s = .next (s.writeF d (fieldInv (s.readF a)))) ∧
  (∀ x y z : FieldValue,
    fieldAdd x y = fieldAdd y x ∧ fieldMul x y = fieldMul y x ∧
    fieldAdd (fieldAdd x y) z = fieldAdd x (fieldAdd y z) ∧ fieldMul (fieldMul x y) z = fieldMul x (fieldMul y z) ∧
    fieldMul x (fieldAdd y z) = fieldAdd (fieldMul x y) (fieldMul x z) ∧
    fieldAdd x (reduce 0) = x ∧ fieldMul x (reduce 1) = x ∧ fieldSub x y = fieldAdd x (fieldNeg y) ∧
    (x.val ≠ 0 → fieldMul x (fieldInv x) = reduce 1))

/-- R151: FLD flags nothing, does not see bit 255 (byte 31 bit 7), and loads a canonical encoding as its value. -/
def Obligations.FldAcceptsEveryByteString : Prop :=
  (∀ (d : Reg) (k : Slot) (s : State), ∃ t, exec (.fld d k) s = .next t ∧ SameControl s t) ∧
  (∀ (d : Reg) (k : Slot) (s s' : State),
    (∀ j, j < 31 → s.opram.readByte (32 * k.val + j) = s'.opram.readByte (32 * k.val + j)) →
    (∀ j, j < 7 → (s.opram.readByte (32 * k.val + 31)).getLsbD j = (s'.opram.readByte (32 * k.val + 31)).getLsbD j) →
    ∃ t t', exec (.fld d k) s = .next t ∧ exec (.fld d k) s' = .next t' ∧ t.readF d = t'.readF d) ∧
  (∀ (d : Reg) (k : Slot) (s : State) (v : FieldValue), s.readSlot k = v.val →
    ∃ t, exec (.fld d k) s = .next t ∧ t.readF d = v)

/-- R161: two registers hold the same value if and only if FST writes the same 32 bytes for both. -/
def Obligations.EqualValuesHaveEqualBytes : Prop :=
  ∀ (s : State) (a b : Reg) (k : Slot), s.opram.wf = true → ∃ ta tb, exec (.fst k a) s = .next ta ∧
    exec (.fst k b) s = .next tb ∧ (s.readF a = s.readF b ↔
      ∀ j, j < 32 → ta.opram.readByte (slotAddress k + j) = tb.opram.readByte (slotAddress k + j))

/-- R162: FST then FLD gives the value back; FLD then FST replaces the slot by the canonical bytes of its value, and leaves
OPRAM as it is exactly when the slot was canonical. -/
def Obligations.SerializationRoundTrips : Prop :=
  (∀ (s : State) (a d : Reg) (k : Slot), s.opram.wf = true → ∃ t u, exec (.fst k a) s = .next t ∧
    exec (.fld d k) t = .next u ∧ u.readF d = s.readF a) ∧
  (∀ (s : State) (d : Reg) (k : Slot), s.opram.wf = true → ∃ t u, exec (.fld d k) s = .next t ∧
    exec (.fst k d) t = .next u ∧ u.readSlot k = s.readSlot k % 2 ^ 255 % (2 ^ 255 - 19) ∧
    (u.opram = s.opram ↔ s.readSlot k < 2 ^ 255 - 19))

/-! ### Encoding -/

/-- R83, R85: decoding the word of a command gives the command back, with every operand at every value. -/
def Obligations.DecodeOfEncode : Prop := ∀ i : Instr, decode (encode i) = .ok i

/-- R87, R88: no bit is ignored. A word that decodes is the word of its command. -/
def Obligations.EncodeOfDecode : Prop := ∀ (w : Word) (i : Instr), decode w = .ok i → encode i = w

/-- R86, R87: the decoder's verdict on every word. -/
def Obligations.DecoderVerdicts : Prop :=
  ∀ w : Word,
    (decode w = .error .illegalOpcode ↔ w.toNat % 256 = 0x00 ∨ 0x0A ≤ w.toNat % 256) ∧
    (decode w = .error .reservedField ↔ (1 ≤ w.toNat % 256 ∧ w.toNat % 256 ≤ 9) ∧ ReservedBitSet w) ∧
    ((∃ i, decode w = .ok i) ↔ (1 ≤ w.toNat % 256 ∧ w.toNat % 256 ≤ 9) ∧ ¬ ReservedBitSet w)

/-- R84, R88: the nine rows, their match and mask; they do not overlap, and the decoder accepts exactly the words some row
selects. -/
def Obligations.OpcodeRowsDoNotOverlap : Prop :=
  opcodeTable.map (fun r => (r.op, r.pattern, r.mask)) =
    [(0x01, 0x00000001, 0xFFF000FF), (0x02, 0x00000002, 0xFFF000FF), (0x03, 0x00000003, 0xFFF000FF),
     (0x04, 0x00000004, 0xFFFF00FF), (0x05, 0x00000005, 0xFFFF00FF), (0x06, 0x00000006, 0xFFFF00FF),
     (0x07, 0x00000007, 0xFFE00FFF), (0x08, 0x00000008, 0xFFF0F0FF), (0x09, 0x00000009, 0xFFF00FFF)] ∧
  (∀ (w : Word) (r r' : OpcodeRow), r ∈ opcodeTable → r' ∈ opcodeTable → r.selects w = true → r'.selects w = true →
    r = r') ∧
  (∀ w : Word, (∃ i, decode w = .ok i) ↔ ∃ r ∈ opcodeTable, r.selects w = true)

/-- Words written out in R89, R90 and spec/95 (V10.1 to V10.11) decode as the spec says. -/
def Obligations.WordsOfTheSpecDecode : Prop :=
  decode 0x00021301 = .ok (.fadd 3 1 2) ∧ decode 0x00021302 = .ok (.fsub 3 1 2) ∧
  decode 0x00021303 = .ok (.fmul 3 1 2) ∧ decode 0x00004404 = .ok (.fsqr 4 4) ∧ decode 0x00001205 = .ok (.fneg 2 1) ∧
  decode 0x00001206 = .ok (.finv 2 1) ∧ decode 0x00121007 = .ok (.fcswap 1 2 true) ∧
  decode 0x00030508 = .ok (.fld 5 3) ∧ decode 0x00025009 = .ok (.fst 2 5) ∧
  decode 0x00000007 = .ok (.fcswap 0 0 false) ∧
  decode 0x00000000 = .error .illegalOpcode ∧ decode 0x0000000A = .error .illegalOpcode ∧
  decode 0x000000FF = .error .illegalOpcode ∧
  decode 0x8000000B = .error .illegalOpcode ∧ decode 0x00121301 = .error .reservedField ∧
  decode 0x80021301 = .error .reservedField ∧ decode 0x00011204 = .error .reservedField ∧
  decode 0x00021107 = .error .reservedField ∧ decode 0x00031108 = .error .reservedField ∧
  decode 0x00010109 = .error .reservedField

/-- The example lines of R89 assemble to the words R89 gives, with and without a comment. -/
def Obligations.ExampleLinesAssemble : Prop :=
  assembleLine "fadd f3, f1, f2".toList = some [0x00021301] ∧ assembleLine "fsqr f4, f4".toList = some [0x00004404] ∧
  assembleLine "fcswap f1, f2, 1".toList = some [0x00121007] ∧ assembleLine "fld f5, s3".toList = some [0x00030508] ∧
  assembleLine "fst s2, f5".toList = some [0x00025009] ∧ assembleLine "fst s2, f5 ; comment".toList = some [0x00025009] ∧
  assembleLine "fadd f3, f1, f16".toList = none

/-- R90: the expansions, words and effects of the pseudo-instructions. `fmov` is two commands, the second run on the state
the first left. -/
def Obligations.PseudoInstructions : Prop :=
  (expandStmt .fnop = some [.fcswap 0 0 false] ∧ encode (.fcswap 0 0 false) = 0x00000007 ∧
    ∀ s : State, exec (.fcswap 0 0 false) s = .next s) ∧
  (∀ a b : Reg, expandStmt (.fswap a.val b.val) = some [.fcswap a b true] ∧
    ∀ s : State, ∃ t, exec (.fcswap a b true) s = .next t ∧ t.readF a = s.readF b ∧ t.readF b = s.readF a) ∧
  (∀ d a : Reg, expandStmt (.fdbl d.val a.val) = some [.fadd d a a] ∧
    ∀ s : State, ∃ t, exec (.fadd d a a) s = .next t ∧ (t.readF d).val = 2 * (s.readF a).val % (2 ^ 255 - 19)) ∧
  (∀ d : Reg, expandStmt (.fzero d.val) = some [.fsub d 0 0] ∧
    ∀ s : State, ∃ t, exec (.fsub d 0 0) s = .next t ∧ (t.readF d).val = 0) ∧
  (∀ (d a : Reg) (k : Slot), expandStmt (.fmov d.val a.val k.val) = some [.fst k a, .fld d k] ∧
    ∀ s : State, s.opram.wf = true → ∃ t u, exec (.fst k a) s = .next t ∧ exec (.fld d k) t = .next u ∧
      u.readF d = s.readF a ∧ u.readSlot k = (s.readF a).val)

/-! ### The step -/

/-- A step runs the decoded command: whichever way the command the unit holds comes to complete, the step is Exec of what
its word decodes to, with the completion of R27 around it; and so it is for a word placed by `withFetchWord`. -/
def Obligations.StepRunsTheHeldCommand : Prop :=
  ∀ (w : Word) (i : Instr), decode w = .ok i →
    decodeTableWord 32 w.toNat = some i ∧
    (∀ (s : State) (n : Nat), s.unit = .busy w n → s.inbox = [] → step s = thenCompleted (exec i s)) ∧
    (∀ (s : State) (n : Nat) (rest : List HostMove), s.unit = .busy w n → n ≤ 1 → s.inbox = .tick :: rest →
      step s = thenCompleted (exec i (s.withInbox rest))) ∧
    (∀ (s : State) (n : Nat) (rest : List HostMove), s.unit = .busy w n → s.inbox = .awaitIdle :: rest →
      step s = thenCompleted (exec i (s.withInbox rest))) ∧
    (∀ (s : State) (n : Nat) (a b : Access) (rest : List HostMove), s.unit = .busy w n → s.stalled = some b →
      s.inbox = .access a :: rest → step s = thenCompleted (exec i s)) ∧
    (∀ s : State, step (s.withFetchWord 32 w.toNat) = thenCompleted (exec i (s.withUnit (.busy w 1))))

/-- The invariant holds after reset. -/
def Obligations.ResetHasTheInvariant : Prop := Inv State.reset

/-- Every step keeps the invariant: OPRAM canonical, a BUSY unit holds an accepted command with 1 to LAT_op cycles to go and
DONE is 0, the error record says what R33, R34 and R171 say, only OPRAM accesses are held. -/
def Obligations.StepKeepsTheInvariant : Prop := ∀ s t : State, Inv s → step s = .next t → Inv t

/-- Nothing is stuck (spec/93 section 2): from a state with the invariant a step neither faults nor is refused. -/
def Obligations.StepNeverStops : Prop := ∀ s : State, Inv s → ∃ t, step s = .next t

/-- R27, R57 and R223: every run ends. With finitely many moves to come, all of them reach the block, no access stays held
and the unit is IDLE after a bounded number of steps. What one step is, and so the count 4n + 3, is the model's choice
(notes/assumptions/1). -/
def Obligations.EveryRunEnds : Prop :=
  ∀ s : State, Inv s → ∃ k, k ≤ 4 * s.inbox.length + 3 ∧ ∃ t, runFor k s = .next t ∧ EndOfRun t

/-- R170, R182: what a CMD write does, the errors in R182's order; the causes are given by the word's own bits. An accepted
command stays the one the unit holds and completes, as Exec with the completion of R27, unless a reset is among the moves to
come. -/
def Obligations.CmdWriteOutcomes : Prop :=
  ∀ (s : State) (w : Word) (rest : List HostMove), s.stalled = none → s.inbox = writeTo 0x200 w :: rest →
    (s.err = true → step s = .next ((s.withInbox rest).respond ⟨none, false⟩)) ∧
    (s.err = false →
      (∀ w' n, s.unit = .busy w' n → step s = .next
        { (s.withInbox rest).respond ⟨none, false⟩ with err := true, errCause := 3, errCmd := w }) ∧
      (s.unit = .idle → w.toNat % 256 = 0 ∨ 10 ≤ w.toNat % 256 → step s = .next
        { (s.withInbox rest).respond ⟨none, false⟩ with done := false, err := true, errCause := 1, errCmd := w }) ∧
      (s.unit = .idle → 1 ≤ w.toNat % 256 ∧ w.toNat % 256 ≤ 9 → ReservedBitSet w → step s = .next
        { (s.withInbox rest).respond ⟨none, false⟩ with done := false, err := true, errCause := 2, errCmd := w }) ∧
      (s.unit = .idle → 1 ≤ w.toNat % 256 ∧ w.toNat % 256 ≤ 9 → ¬ ReservedBitSet w → ∃ i, decode w = .ok i ∧ step s = .next
        { (s.withInbox rest).respond ⟨none, false⟩ with done := false, unit := .busy w (latencyOf i) } ∧
        ((∀ during, HostMove.rst during ∉ rest) → (∀ w' : Word, w'[2] = true → writeTo 0x210 w' ∉ rest) →
          ∃ k u v, runFor (k + 1) s = .next u ∧ (∃ n, u.unit = .busy w n) ∧ u.f = s.f ∧ u.opram = s.opram ∧
            step u = .next v ∧ thenCompleted (exec i (u.withInbox v.inbox)) = .next v)))

/-- R172: an error record changes ERR, ERRCAUSE and ERRCMD only; after CMD_BUSY the running command completes as it would
have done, and sets DONE. -/
def Obligations.CmdBusyLeavesTheRunningCommand : Prop :=
  (∀ (s : State) (e : CommandError) (w : Word),
    s.recordError e w = { s with err := true, errCause := e.code, errCmd := w }) ∧
  (∀ (s : State) (w w' : Word) (n : Nat) (i : Instr), decode w' = .ok i → s.unit = .busy w' n → s.err = false →
    s.stalled = none → s.inbox = [writeTo 0x200 w] → ∃ t u v, runFor 2 s = .next t ∧
      t.unit = .idle ∧ t.done = true ∧ t.err = true ∧ t.errCause = 3 ∧ t.errCmd = w ∧
      exec i s = .next u ∧ t.f = u.f ∧ t.opram = u.opram ∧
      step s = .next v ∧ v.unit = .busy w' n ∧ v.f = s.f ∧ v.opram = s.opram ∧ v.ieDone = s.ieDone ∧ v.ieErr = s.ieErr)

/-- R174: while ERR is set a CMD write changes nothing; the record keeps the first error; only a STATUS write with bit 2 set
or a reset clears it. -/
def Obligations.ErrorRecordIsSticky : Prop :=
  (∀ (s : State) (w : Word) (rest : List HostMove), s.err = true → s.stalled = none → s.inbox = writeTo 0x200 w :: rest →
    step s = .next ((s.withInbox rest).respond ⟨none, false⟩)) ∧
  (∀ s t : State, Inv s → step s = .next t → s.err = true → t.err = true →
    t.errCause = s.errCause ∧ t.errCmd = s.errCmd) ∧
  (∀ s t : State, Inv s → step s = .next t → s.err = true → t.err = false → ∃ m rest, s.inbox = m :: rest ∧
    ((∃ w : Word, m = writeTo 0x204 w ∧ w[2] = true) ∨ (∃ w : Word, m = writeTo 0x210 w ∧ w[2] = true) ∨
      ∃ during, m = .rst during))

/-- R170, R173, R181: ERR is set only by a CMD write that is refused. The refused command leaves the field registers, OPRAM
and the unit as they are, and the record names its word and its cause. -/
def Obligations.ErrIsSetByRefusedCommandsOnly : Prop :=
  ∀ s t : State, Inv s → step s = .next t → s.err = false → t.err = true →
    ∃ (w : Word) (rest : List HostMove), s.inbox = writeTo 0x200 w :: rest ∧ t.errCmd = w ∧ t.unit = s.unit ∧ t.f = s.f ∧
      t.opram = s.opram ∧ t.ieDone = s.ieDone ∧ t.ieErr = s.ieErr ∧
      ((s.busy = true ∧ t.errCause = 3 ∧ t.done = s.done) ∨
        (s.busy = false ∧ t.done = false ∧ ((t.errCause = 1 ∧ decode w = .error .illegalOpcode) ∨
          (t.errCause = 2 ∧ decode w = .error .reservedField))))

/-- R32, R181: DONE is set by the completion of a command only, and cleared by a STATUS write with bit 1 set, a CMD write
evaluated in IDLE with ERR = 0, or a reset only. -/
def Obligations.DoneIsSetByCompletionOnly : Prop :=
  (∀ s t : State, Inv s → step s = .next t → s.done = false → t.done = true → ∃ w n i u, s.unit = .busy w n ∧
    decode w = .ok i ∧ exec i (s.withInbox t.inbox) = .next u ∧ t = { u with unit := .idle, done := true }) ∧
  (∀ s t : State, Inv s → step s = .next t → s.done = true → t.done = false → ∃ m rest, s.inbox = m :: rest ∧
    ((∃ w : Word, m = writeTo 0x204 w ∧ w[1] = true) ∨
      (∃ w : Word, m = writeTo 0x200 w ∧ s.unit = .idle ∧ s.err = false) ∨
      (∃ w : Word, m = writeTo 0x210 w ∧ w[2] = true) ∨ ∃ during, m = .rst during))

/-- R25: the unit leaves IDLE only by accepting a command. -/
def Obligations.LeavesIdleOnlyByAccepting : Prop :=
  ∀ (s t : State) (w : Word) (n : Nat), Inv s → step s = .next t → s.unit = .idle → t.unit = .busy w n →
    ∃ rest i, s.inbox = writeTo 0x200 w :: rest ∧ s.err = false ∧ decode w = .ok i ∧ n = latencyOf i

/-- R26: while the unit is BUSY no field register and no byte of OPRAM changes, and the command it holds stays the same. -/
def Obligations.BusyHoldsTheOperands : Prop :=
  ∀ (s t : State) (w w' : Word) (n n' : Nat), step s = .next t → s.unit = .busy w n → t.unit = .busy w' n' →
    (∀ i, t.readF i = s.readF i) ∧ (∀ a, t.opram.readByte a = s.opram.readByte a) ∧ w' = w ∧ n' ≤ n

/-- R220: a command completes LAT_op clock cycles after its acceptance and not before; LAT_op ≥ 1 depends on the opcode
only. -/
def Obligations.LatencyIsOfTheOpcode : Prop :=
  (∀ (w : Word) (i : Instr) (s : State) (rest : List HostMove), decode w = .ok i → s.unit = .busy w (latencyOf i) →
    s.inbox = List.replicate (latencyOf i) .tick ++ rest →
    (∀ k, k < latencyOf i → ∃ t, runFor k s = .next t ∧ t.unit = .busy w (latencyOf i - k)) ∧
    ∃ t, runFor (latencyOf i) s = .next t ∧ t.unit = .idle ∧ t.done = true ∧ t.inbox = rest) ∧
  (∀ (w w' : Word) (i i' : Instr), decode w = .ok i → decode w' = .ok i' → w.toNat % 256 = w'.toNat % 256 →
    latencyOf i = latencyOf i') ∧
  ∀ i : Instr, 1 ≤ latencyOf i

/-- R22: field registers change only by a completing command that is not FST, or by a reset; OPRAM changes only by a
completing FST, by a host write to an OPRAM offset, which stores the word, or by a reset. -/
def Obligations.WritersOfRegistersAndOpram : Prop :=
  ∀ s t : State, Inv s → step s = .next t →
    (t.f ≠ s.f → (∃ i, CompletesHeld s t i ∧ ∀ k a, i ≠ .fst k a) ∨ (ResetArrives s ∧ t.f = State.reset.f)) ∧
    (t.opram ≠ s.opram → (∃ k a, CompletesHeld s t (.fst k a)) ∨
      (∃ a w, a.kind = .write w ∧ a.legal = true ∧ a.offset.toNat < 0x200 ∧ s.unit = .idle ∧
        (s.stalled = some a ∨ s.stalled = none ∧ ∃ rest, s.inbox = .access a :: rest) ∧
        t.opram = s.opram.write a.offset.toNat 4 w.toNat) ∨
      (ResetArrives s ∧ t.opram = State.reset.opram))

/-- R22: the host cannot read a field register. Two states that differ in field registers only step to states that differ in
field registers only, unless the command that the unit holds is an FST. -/
def Obligations.HostCannotReadFieldRegisters : Prop :=
  ∀ (s t : State) (g : Vector FieldValue 16), (∀ w n k a, s.unit = .busy w n → decode w ≠ .ok (.fst k a)) →
    step s = .next t → ∃ g', step { s with f := g } = .next { t with f := g' }

/-- R221, R110, R142: host-visible timing is data-independent. Runs from states that differ in field registers and OPRAM
contents stay equal in everything but data: BUSY, DONE, ERR, stalls, and when each access is answered. -/
def Obligations.TimingIsDataIndependent : Prop :=
  ∀ (k : Nat) (s s' t : State), TimingTwin s s' → runFor k s = .next t → ∃ t', runFor k s' = .next t' ∧ TimingTwin t t'

/-! ### The window -/

/-- R32, R186: what STATUS reads as, and what a STATUS write does and leaves. -/
def Obligations.StatusReadsAndWrites : Prop :=
  (∀ s : State, s.statusWord[0] = s.busy ∧ s.statusWord[1] = s.done ∧ s.statusWord[2] = s.err ∧
    ∀ i, 3 ≤ i → s.statusWord.getLsbD i = false) ∧
  (∀ (s : State) (w : Word) (rest : List HostMove), s.stalled = none → s.inbox = writeTo 0x204 w :: rest →
    step s = .next { (s.withInbox rest).respond ⟨none, false⟩ with
      done := s.done && !w[1]
      err := s.err && !w[2]
      errCause := if w[2] then 0 else s.errCause
      errCmd := if w[2] then 0 else s.errCmd })

/-- R36: CTRL. -/
def Obligations.CtrlReadsAndWrites : Prop :=
  (∀ s : State, s.ctrlWord[0] = s.ieDone ∧ s.ctrlWord[1] = s.ieErr ∧ ∀ i, 2 ≤ i → s.ctrlWord.getLsbD i = false) ∧
  (∀ (s : State) (w : Word) (rest : List HostMove), s.stalled = none → s.inbox = writeTo 0x210 w :: rest →
    (w[2] = false → step s = .next
      { (s.withInbox rest).respond ⟨none, false⟩ with ieDone := w[0], ieErr := w[1] }) ∧
    (w[2] = true → ∃ t, step s = .next t ∧ t.ctrlWord = 0 ∧ t.unit = .idle ∧ t.statusWord = 0 ∧ t.errCauseWord = 0 ∧
      t.errCmd = 0 ∧ (∀ i, (t.readF i).val = 0) ∧ ∀ a, t.opram.readByte a = 0x00))

/-- R30, R31, R33, R34, R35, R52: what a read of every register and reserved offset answers, in any mode, with no bus error
and no other effect. -/
def Obligations.ControlRegisterReads : Prop :=
  ∀ (s : State) (rest : List HostMove) (o : Offset), s.stalled = none → s.inbox = readFrom o :: rest →
    0x200 ≤ o.toNat → o.toNat % 4 = 0 → step s = .next ((s.withInbox rest).respond ⟨some
      (if o.toNat = 0x204 then s.statusWord
       else if o.toNat = 0x208 then BitVec.ofNat 32 s.errCause.toNat
       else if o.toNat = 0x20C then s.errCmd
       else if o.toNat = 0x210 then s.ctrlWord
       else if o.toNat = 0x214 then 0xED250100
       else 0x00000000), false⟩)

/-- R37, R52: a write to ERRCAUSE, ERRCMD, ID or a reserved offset has no effect and no bus error, and a write to STATUS or
CTRL does not see the read-only and reserved bits. -/
def Obligations.ReadOnlyAndReservedWritesAreIgnored : Prop :=
  (∀ (s : State) (w : Word) (rest : List HostMove) (o : Offset), s.stalled = none → s.inbox = writeTo o w :: rest →
    o.toNat % 4 = 0 → (o.toNat = 0x208 ∨ o.toNat = 0x20C ∨ o.toNat = 0x214 ∨ 0x218 ≤ o.toNat) →
    step s = .next ((s.withInbox rest).respond ⟨none, false⟩)) ∧
  (∀ (s : State) (w w' : Word), w[1] = w'[1] → w[2] = w'[2] →
    s.windowWrite 0x204 w = s.windowWrite 0x204 w') ∧
  (∀ (s : State) (w w' : Word), w[0] = w'[0] → w[1] = w'[1] → w[2] = w'[2] →
    s.windowWrite 0x210 w = s.windowWrite 0x210 w')

/-- R61: a read has no side effect and reading twice answers the same; of the writes only those to CMD, STATUS and CTRL do
more than store bytes: one to an OPRAM offset stores its word's four bytes there and leaves every other byte, and one
elsewhere, or one that gets a bus error (R55), stores nothing. OPRAM is in its canonical form for the bytes (an invariant). -/
def Obligations.ReadsHaveNoSideEffect : Prop :=
  (∀ (s : State) (a : Access), a.kind = .read → ∃ r, s.perform a = s.respond r ∧
    (s.perform a).perform a = (s.respond r).respond r) ∧
  (∀ (s : State) (a : Access) (w : Word), a.kind = .write w → a.offset.toNat ≠ 0x200 → a.offset.toNat ≠ 0x204 →
    a.offset.toNat ≠ 0x210 → s.perform a = (s.withOpram
      (if a.legal = true ∧ a.offset.toNat < 0x200 then s.opram.write a.offset.toNat 4 w.toNat else s.opram)).respond
        ⟨none, !a.legal⟩) ∧
  (∀ (s : State) (a : Access) (w : Word), s.opram.wf = true → a.kind = .write w → a.legal = true →
    a.offset.toNat < 0x200 →
    (∀ k, k < 4 → (s.perform a).opram.readByte (a.offset.toNat + k) = BitVec.ofNat 8 (w.toNat >>> (8 * k))) ∧
    ∀ x, x < a.offset.toNat ∨ a.offset.toNat + 4 ≤ x → (s.perform a).opram.readByte x = s.opram.readByte x)

/-- R55: an access that is not 32 bits wide, or whose offset is not a multiple of 4, gets a bus error and changes nothing; a
read then returns 0. The last clause is the access that was held first (notes/assumptions/4). -/
def Obligations.BusErrorsChangeNothing : Prop :=
  ∀ (s : State) (a : Access), a.bytes ≠ 4 ∨ a.offset.toNat % 4 ≠ 0 →
    (∀ rest, s.stalled = none → (s.unit = .idle ∨ 0x200 ≤ a.offset.toNat) → s.inbox = .access a :: rest →
      step s = .next ((s.withInbox rest).respond ⟨if a.kind = .read then some 0x00000000 else none, true⟩)) ∧
    (s.unit = .idle → s.stalled = some a →
      step s = .next ((s.withStalled none).respond ⟨if a.kind = .read then some 0x00000000 else none, true⟩))

/-- R56: host words are little-endian, in both directions; the 8 words of a slot are the words of its integer. OPRAM is in
its canonical form for the write (an invariant). -/
def Obligations.HostWordsAreLittleEndian : Prop :=
  (∀ (s : State) (o : Offset) (rest : List HostMove), s.unit = .idle → s.stalled = none → o.toNat < 0x200 →
    o.toNat % 4 = 0 → s.inbox = readFrom o :: rest →
    step s = .next ((s.withInbox rest).respond ⟨some (BitVec.ofNat 32 ((s.opram.readByte o.toNat).toNat +
      (s.opram.readByte (o.toNat + 1)).toNat * 2 ^ 8 + (s.opram.readByte (o.toNat + 2)).toNat * 2 ^ 16 +
      (s.opram.readByte (o.toNat + 3)).toNat * 2 ^ 24)), false⟩)) ∧
  (∀ (s : State) (o : Offset) (w : Word) (rest : List HostMove), s.unit = .idle → s.stalled = none → o.toNat < 0x200 →
    o.toNat % 4 = 0 → s.opram.wf = true → s.inbox = writeTo o w :: rest → ∃ t, step s = .next t ∧
    (∀ k, k < 4 → t.opram.readByte (o.toNat + k) = BitVec.ofNat 8 (w.toNat >>> (8 * k))) ∧
    (∀ a, a < o.toNat ∨ o.toNat + 4 ≤ a → t.opram.readByte a = s.opram.readByte a) ∧
    (∀ i, t.readF i = s.readF i) ∧ SameControl ((s.withInbox rest).respond ⟨none, false⟩) t) ∧
  (∀ (s : State) (k : Slot) (j : Nat), j < 8 →
    s.windowRead (BitVec.ofNat 12 (32 * k.val + 4 * j)) = BitVec.ofNat 32 (s.readSlot k >>> (32 * j)))

/-- R57: an OPRAM access that arrives while the unit is BUSY is held and not answered; it stays held while the unit is BUSY;
once the unit is IDLE it completes against the state it finds; a hardware reset lifts the hold. Accesses at 0x200 and above
never stall. That an access which will get a bus error is held too is the model's reading (notes/assumptions/4, DEDUCED), and
so is that nothing else is answered while an access is held (notes/assumptions/10, DEDUCED). -/
def Obligations.OpramAccessStallsWhileBusy : Prop :=
  (∀ (s : State) (a : Access) (rest : List HostMove) (w : Word) (n : Nat), s.unit = .busy w n → s.stalled = none →
    a.offset.toNat < 0x200 → s.inbox = .access a :: rest → step s = .next ((s.withInbox rest).withStalled (some a))) ∧
  (∀ (s t : State) (a : Access), s.stalled = some a → s.busy = true → step s = .next t → t.stalled = some a ∧
    ((∀ during rest, s.inbox ≠ .rst during :: rest) → t.responses = s.responses)) ∧
  (∀ (s : State) (a : Access), s.stalled = some a → s.unit = .idle → step s = .next ((s.withStalled none).perform a)) ∧
  (∀ (s : State) (a : Access) (rest : List HostMove) (w : Word) (n : Nat), s.unit = .busy w n → s.stalled = some a →
    s.inbox = .rst none :: rest → ∃ t u, step s = .next t ∧ t.unit = .idle ∧ t.opram = [] ∧
      step t = .next u ∧ u = (t.withStalled none).perform a) ∧
  (∀ (s : State) (a : Access) (rest : List HostMove), s.stalled = none → 0x200 ≤ a.offset.toNat →
    s.inbox = .access a :: rest → ∃ t, step s = .next t ∧ t.stalled = none ∧ t.inbox = rest ∧
      t.responses.length = s.responses.length + 1)

/-- R63, R213: an OPRAM read that arrives after an accepted FST's CMD write answers the word FST wrote, though it arrives
while the unit is BUSY. -/
def Obligations.ReadAfterFstSeesTheStore : Prop :=
  ∀ (s : State) (k : Slot) (a : Reg) (j : Nat), j < 8 → s.unit = .idle → s.err = false → s.stalled = none →
    s.opram.wf = true →
    s.inbox = [writeTo 0x200 (encode (.fst k a)), readFrom (BitVec.ofNat 12 (32 * k.val + 4 * j))] →
    ∃ t, runFor 4 s = .next t ∧ t.unit = .idle ∧
      t.responses.head? = some ⟨some (BitVec.ofNat 32 ((s.readF a).val >>> (32 * j))), false⟩

/-- R63: an OPRAM word written before a CMD write is seen by that command's FLD. -/
def Obligations.FldSeesEarlierWrites : Prop :=
  ∀ (s : State) (d : Reg) (k : Slot) (j : Nat) (w : Word), j < 8 → s.unit = .idle → s.err = false → s.stalled = none →
    s.opram.wf = true →
    s.inbox = [writeTo (BitVec.ofNat 12 (32 * k.val + 4 * j)) w, writeTo 0x200 (encode (.fld d k))] →
    ∃ m t, runFor 1 s = .next m ∧ BitVec.ofNat 32 (m.readSlot k >>> (32 * j)) = w ∧ runFor 3 s = .next t ∧
      (t.readF d).val = m.readSlot k % 2 ^ 255 % (2 ^ 255 - 19)

/-- R183: a CMD write, or a STATUS write with bit 1 set, in the cycle in which the running command completes has both
outcomes, one for each order of arrival and completion (notes/assumptions/3). -/
def Obligations.CompletionRaceHasBothOutcomes : Prop :=
  ∀ (s : State) (w w' : Word) (i : Instr) (rest : List HostMove), decode w = .ok i → s.unit = .busy w 1 →
    s.stalled = none → s.err = false →
    (s.inbox = writeTo 0x200 w' :: .tick :: rest → ∃ t, runFor 2 s = .next t ∧ t.unit = .idle ∧ t.done = true ∧
      t.err = true ∧ t.errCause = 3 ∧ t.errCmd = w') ∧
    (s.inbox = .tick :: writeTo 0x200 w' :: rest → ∃ u t, runFor 1 s = .next u ∧ u.done = true ∧ u.unit = .idle ∧
      runFor 2 s = .next t ∧ t.done = false ∧ (∀ i', decode w' = .ok i' → t.unit = .busy w' (latencyOf i') ∧ t.err = false) ∧
      (∀ e, decode w' = .error e → t.unit = .idle ∧ t.err = true ∧ t.errCause = e.code ∧ t.errCmd = w')) ∧
    (w'[1] = true → s.inbox = writeTo 0x204 w' :: .tick :: rest → ∃ t, runFor 2 s = .next t ∧ t.done = true) ∧
    (w'[1] = true → s.inbox = .tick :: writeTo 0x204 w' :: rest → ∃ t, runFor 2 s = .next t ∧ t.done = false)

/-- R180, R40: `irq`, the host input it drives, and its value after reset. -/
def Obligations.IrqIsTheEnabledPendingLevel : Prop :=
  (∀ s : State, s.irq = true ↔ (s.done = true ∧ s.ieDone = true) ∨ (s.err = true ∧ s.ieErr = true)) ∧
  (∀ s : State, s.hostIrqInput Config.fauIrqLine = s.irq ∧
    ∀ line, line ≠ Config.fauIrqLine → s.hostIrqInput line = false) ∧
  State.reset.irq = false

/-- R50: FAU_BASE is a multiple of 4096; the 4096 addresses from it on are the window's offsets and no other address reaches
the block; OPRAM is 0x000 to 0x1FF and what is not OPRAM or a register is reserved. -/
def Obligations.WindowMap : Prop :=
  Config.fauBase % 4096 = 0 ∧
  (∀ o : Offset, windowOffset (hostAddress o) = some o) ∧
  (∀ (addr : Nat) (o : Offset), windowOffset addr = some o → addr = hostAddress o) ∧
  (∀ o : Offset, (windowTarget o = .opram ↔ o.toNat < 0x200) ∧ (windowTarget o = .cmd ↔ o.toNat = 0x200) ∧
    (windowTarget o = .status ↔ o.toNat = 0x204) ∧ (windowTarget o = .errcause ↔ o.toNat = 0x208) ∧
    (windowTarget o = .errcmd ↔ o.toNat = 0x20C) ∧ (windowTarget o = .ctrl ↔ o.toNat = 0x210) ∧
    (windowTarget o = .id ↔ o.toNat = 0x214) ∧ (0x218 ≤ o.toNat → windowTarget o = .reserved))
end

