-- ==== Sys2Proof/Laws/Arith.lean ====
section
/-! SUPPORT. Arithmetic mod p: reduction, the power that FINV takes, and the primality of p (spec/93 section 3: "Checks done by
computation"). -/

namespace Sys2Proof.Machine

open Sys2Proof

/-! ### Reduction -/

@[simp] theorem reduce_val (n : Nat) : (reduce n).val = n % Config.fieldPrime := rfl

theorem fieldPrime_pos : 0 < Config.fieldPrime := by decide

/-- Two integers reduce to one field value exactly when they are congruent. -/
theorem reduce_eq_iff (m n : Nat) : reduce m = reduce n ↔ m % Config.fieldPrime = n % Config.fieldPrime := Fin.ext_iff

/-- A field value is reduced. -/
@[simp] theorem reduce_self (x : FieldValue) : reduce x.val = x := Fin.ext (Nat.mod_eq_of_lt x.isLt)

/-- The least non-negative residue, also of a negative integer (R9). -/
theorem reduceInt_val (z : Int) : ((reduceInt z).val : Int) = z % (Config.fieldPrime : Int) := by
  have h0 : (0 : Int) < (Config.fieldPrime : Int) := by exact_mod_cast fieldPrime_pos
  have h1 := Int.emod_nonneg z (ne_of_gt h0)
  have h2 := Int.emod_lt_of_pos z h0
  rw [reduceInt, reduce_val, Nat.mod_eq_of_lt (by omega)]
  omega

/-- What a meaning of the family computes, said once per operation. -/
theorem fieldAdd_val (x y : FieldValue) : (fieldAdd x y).val = (x.val + y.val) % Config.fieldPrime := rfl

theorem fieldMul_val (x y : FieldValue) : (fieldMul x y).val = (x.val * y.val) % Config.fieldPrime := rfl

theorem fieldSqr_val (x : FieldValue) : (fieldSqr x).val = (x.val * x.val) % Config.fieldPrime := rfl

/-- `x − y if x ≥ y, else x − y + p` (R103). -/
theorem fieldSub_val (x y : FieldValue) :
    (fieldSub x y).val = if y.val ≤ x.val then x.val - y.val else x.val + Config.fieldPrime - y.val := by
  have hx := x.isLt
  have hy := y.isLt
  have h := reduceInt_val ((x.val : Int) - (y.val : Int))
  change ((fieldSub x y).val : Int) = _ at h
  split
  · rw [Int.emod_eq_of_lt (by omega) (by omega)] at h
    omega
  · rw [← Int.add_emod_right, Int.emod_eq_of_lt (by omega) (by omega)] at h
    omega

/-- `p − x if x ≠ 0; 0 if x = 0` (R106). -/
theorem fieldNeg_val (x : FieldValue) : (fieldNeg x).val = if x.val = 0 then 0 else Config.fieldPrime - x.val := by
  have hx := x.isLt
  have h := reduceInt_val (0 - (x.val : Int))
  change ((fieldNeg x).val : Int) = _ at h
  split
  · rename_i h0
    rw [h0] at h
    simpa using h
  · rw [← Int.add_emod_right, Int.emod_eq_of_lt (by omega) (by omega)] at h
    omega

/-! ### The power -/

/-- `powMod` is the power (R107). -/
theorem powMod_eq (m bits x e : Nat) (he : e < 2 ^ bits) : powMod m bits x e = x ^ e % m := by
  induction bits generalizing x e with
  | zero =>
    have : e = 0 := by simpa using he
    subst this
    simp [powMod]
  | succ bits ih =>
    have he2 : e / 2 < 2 ^ bits := by rw [pow_succ] at he; omega
    have hsq : (x * x % m) ^ (e / 2) % m = x ^ (2 * (e / 2)) % m := by
      rw [← Nat.pow_mod, ← pow_two, ← pow_mul]
    simp only [powMod, ih _ _ he2, hsq]
    split
    · rename_i ho
      rw [Nat.mul_mod_mod]
      conv_rhs => rw [← Nat.div_add_mod e 2, ho, pow_succ, Nat.mul_comm]
    · rename_i ho
      conv_rhs => rw [← Nat.div_add_mod e 2, show e % 2 = 0 by omega, Nat.add_zero]

/-- FINV's value is the power p − 2 (R107). -/
theorem fieldInv_val (x : FieldValue) :
    (fieldInv x).val = x.val ^ (Config.fieldPrime - 2) % Config.fieldPrime := by
  rw [fieldInv, reduce_val, powMod_eq _ _ _ _ (by decide), Nat.mod_mod]

/-! ### p is prime -/

/-- Lucas's test with the powers computed by `powMod`: `g` has order `n − 1` mod `n`, whose prime factors are `fs`. -/
theorem prime_of_powMod {n g bits : Nat} {fs : List Nat} (hn : 1 < n) (hbits : n - 1 < 2 ^ bits)
    (hprod : fs.prod = n - 1) (hfs : ∀ q ∈ fs, q.Prime) (hone : powMod n bits g (n - 1) = 1)
    (hne : ∀ q ∈ fs, powMod n bits g ((n - 1) / q) ≠ 1) : n.Prime := by
  have hcast : ∀ e, e < 2 ^ bits → ((((g : Nat) : ZMod n) ^ e = 1) ↔ powMod n bits g e = 1) := by
    intro e he
    rw [powMod_eq _ _ _ _ he, ← Nat.cast_pow, ← Nat.cast_one (R := ZMod n), ZMod.natCast_eq_natCast_iff',
      Nat.mod_eq_of_lt hn]
  refine lucas_primality n ((g : Nat) : ZMod n) ((hcast _ hbits).2 hone) fun q hq hd => ?_
  have hmem : q ∈ fs := by
    rw [← hprod] at hd
    obtain ⟨r, hr, hqr⟩ := (Prime.dvd_prod_iff hq.prime).1 hd
    rwa [(Nat.prime_dvd_prime_iff_eq hq (hfs r hr)).1 hqr]
  rw [Ne, hcast _ (lt_of_le_of_lt (Nat.div_le_self _ _) hbits)]
  exact hne q hmem

theorem prime_2773320623 : Nat.Prime 2773320623 :=
  prime_of_powMod (g := 5) (bits := 32) (fs := [2, 2437, 569003]) (by decide) (by decide) (by decide)
    (by simp only [List.mem_cons, List.not_mem_nil, or_false, forall_eq_or_imp, forall_eq]; norm_num)
    (by decide +kernel) (by decide +kernel)

theorem prime_72106336199 : Nat.Prime 72106336199 :=
  prime_of_powMod (g := 7) (bits := 37) (fs := [2, 13, 2773320623]) (by decide) (by decide) (by decide)
    (by simp only [List.mem_cons, List.not_mem_nil, or_false, forall_eq_or_imp, forall_eq]
        exact ⟨by norm_num, by norm_num, prime_2773320623⟩)
    (by decide +kernel) (by decide +kernel)

theorem prime_1919519569386763 : Nat.Prime 1919519569386763 :=
  prime_of_powMod (g := 2) (bits := 51) (fs := [2, 3, 7, 19, 47, 47, 127, 8574133]) (by decide) (by decide) (by decide)
    (by simp only [List.mem_cons, List.not_mem_nil, or_false, forall_eq_or_imp, forall_eq]; norm_num)
    (by decide +kernel) (by decide +kernel)

theorem prime_31757755568855353 : Nat.Prime 31757755568855353 :=
  prime_of_powMod (g := 10) (bits := 55) (fs := [2, 2, 2, 3, 31, 107, 223, 4153, 430751]) (by decide) (by decide) (by decide)
    (by simp only [List.mem_cons, List.not_mem_nil, or_false, forall_eq_or_imp, forall_eq]; norm_num)
    (by decide +kernel) (by decide +kernel)

theorem prime_75445702479781427272750846543864801 : Nat.Prime 75445702479781427272750846543864801 :=
  prime_of_powMod (g := 7) (bits := 117) (fs := [2, 2, 2, 2, 2, 3, 3, 5, 5, 75707, 72106336199, 1919519569386763])
    (by decide) (by decide) (by decide)
    (by simp only [List.mem_cons, List.not_mem_nil, or_false, forall_eq_or_imp, forall_eq]
        exact ⟨by norm_num, by norm_num, by norm_num, by norm_num, by norm_num, by norm_num, by norm_num, by norm_num,
          by norm_num, by norm_num, prime_72106336199, prime_1919519569386763⟩)
    (by decide +kernel) (by decide +kernel)

theorem prime_large_factor :
    Nat.Prime 74058212732561358302231226437062788676166966415465897661863160754340907 :=
  prime_of_powMod (g := 2) (bits := 236)
    (fs := [2, 3, 353, 57467, 132049, 1923133, 31757755568855353, 75445702479781427272750846543864801])
    (by decide) (by decide) (by decide)
    (by simp only [List.mem_cons, List.not_mem_nil, or_false, forall_eq_or_imp, forall_eq]
        exact ⟨by norm_num, by norm_num, by norm_num, by norm_num, by norm_num, by norm_num,
          prime_31757755568855353, prime_75445702479781427272750846543864801⟩)
    (by decide +kernel) (by decide +kernel)

/-- p = 2^255 − 19 is prime. -/
theorem fieldPrime_prime : Nat.Prime Config.fieldPrime :=
  prime_of_powMod (g := 2) (bits := 255)
    (fs := [2, 2, 3, 65147, 74058212732561358302231226437062788676166966415465897661863160754340907])
    (by decide) (by decide) (by decide)
    (by simp only [List.mem_cons, List.not_mem_nil, or_false, forall_eq_or_imp, forall_eq]
        exact ⟨by norm_num, by norm_num, by norm_num, by norm_num, prime_large_factor⟩)
    (by decide +kernel) (by decide +kernel)

end Sys2Proof.Machine
end

