-- ==== Sys2Proof/Laws/Assembler.lean ====
section
/-! SUPPORT. The assembler's text and its parser agree (spec/30_encoding.md R89): one lemma per piece of a line. -/

namespace Sys2Proof.Machine

open Sys2Proof

theorem dropTrailingSpaces_append (l : List Char) {c : Char} (hc : c ≠ ' ') : dropTrailingSpaces (l ++ [c]) = l ++ [c] := by
  induction l with
  | nil => simp [dropTrailingSpaces, hc]
  | cons x l ih =>
    rw [List.cons_append, dropTrailingSpaces, ih]
    cases l <;> rfl

/-- A text with no comment and no space at its end is all statement. -/
theorem uncomment_append {l : List Char} {c : Char} (hl : ∀ x ∈ l, x ≠ ';') (hc : c ≠ ';') (hs : c ≠ ' ') :
    uncomment (l ++ [c]) = l ++ [c] := by
  have : (l ++ [c]).takeWhile (· ≠ ';') = l ++ [c] := by
    rw [List.takeWhile_eq_self_iff]
    intro x hx
    rcases List.mem_append.1 hx with h | h
    · simpa using hl x h
    · have : x = c := by simpa using h
      simpa [this] using hc
  rw [uncomment, this, dropTrailingSpaces_append l hs]

/-- The last piece of an operand list. -/
theorem splitOperands_last {o : List Char} (ho : ∀ x ∈ o, x ≠ ',') : splitOperands o = [o] := by
  induction o with
  | nil => rfl
  | cons c o ih =>
    have hc : c ≠ ',' := ho c (by simp)
    have := ih fun x hx => ho x (by simp [hx])
    rw [splitOperands.eq_def]
    split
    · rename_i h; simp at h
    · rename_i h; exact absurd (by injection h) hc
    · rename_i c' cs' _ h
      injection h with h1 h2
      subst h1; subst h2
      rw [this]

/-- A piece followed by a separator. -/
theorem splitOperands_cons {o : List Char} (ho : ∀ x ∈ o, x ≠ ',') (rest : List Char) :
    splitOperands (o ++ ',' :: ' ' :: rest) = o :: splitOperands rest := by
  induction o with
  | nil => rfl
  | cons c o ih =>
    have hc : c ≠ ',' := ho c (by simp)
    have := ih fun x hx => ho x (by simp [hx])
    rw [List.cons_append, splitOperands.eq_def]
    split
    · rename_i h; simp at h
    · rename_i h; exact absurd (by injection h) hc
    · rename_i c' cs' _ h
      injection h with h1 h2
      subst h1; subst h2
      rw [this]

/-- A line `name rest` with no comment, ending in a character that is no space. -/
theorem parseLine_of {name rest : List Char} {c : Char} (hn : ∀ x ∈ name, x ≠ ' ' ∧ x ≠ ';') (hr : ∀ x ∈ rest, x ≠ ';')
    (hc : c ≠ ';') (hs : c ≠ ' ') : parseLine (name ++ ' ' :: (rest ++ [c])) =
      ((splitOperands (rest ++ [c])).mapM parseOperand).bind (stmtOf name) := by
  have hu : uncomment (name ++ ' ' :: (rest ++ [c])) = name ++ ' ' :: (rest ++ [c]) := by
    have := uncomment_append (l := name ++ ' ' :: rest) (c := c) (by
      intro x hx
      rcases List.mem_append.1 hx with h | h
      · exact (hn x h).2
      · rcases List.mem_cons.1 h with rfl | h
        · decide
        · exact hr x h) hc hs
    simpa using this
  have ht : (name ++ ' ' :: (rest ++ [c])).takeWhile (· ≠ ' ') = name := by
    rw [List.takeWhile_append_of_pos (by intro x hx; simpa using (hn x hx).1)]
    simp
  have hd : (name ++ ' ' :: (rest ++ [c])).dropWhile (· ≠ ' ') = ' ' :: (rest ++ [c]) := by
    rw [List.dropWhile_append_of_pos (by intro x hx; simpa using (hn x hx).1)]
    simp
  rw [parseLine, hu, ht, hd]

/-! ### Operands -/

/-- What an operand's text may not hold, and what its last character is not. -/
def plainText (o : List Char) : Bool := o.all fun c => c != ',' && c != ' ' && c != ';'

theorem plainText_mem {o : List Char} (h : plainText o = true) {x : Char} (hx : x ∈ o) : x ≠ ',' ∧ x ≠ ' ' ∧ x ≠ ';' := by
  have := List.all_eq_true.1 h x hx
  simpa [and_assoc] using this

theorem regText_spec : ∀ r : Reg, plainText (regText r) = true ∧ regText r ≠ [] ∧
    parseOperand (regText r) = some (.freg r.val) ∧ regOf r.val = some r := by decide +kernel

theorem slotText_spec : ∀ k : Slot, plainText (slotText k) = true ∧ slotText k ≠ [] ∧
    parseOperand (slotText k) = some (.slot k.val) ∧ slotOf k.val = some k := by decide +kernel

theorem condText_spec : ∀ c : Bool, plainText (condText c) = true ∧ condText c ≠ [] ∧
    parseOperand (condText c) = some (.bit c.toNat) ∧ condOf c.toNat = some c := by decide +kernel

/-- A text that is not empty is its body and its last character. -/
theorem plainText_split {o : List Char} (h : plainText o = true) (hne : o ≠ []) :
    ∃ b c, o = b ++ [c] ∧ (∀ x ∈ b, x ≠ ';') ∧ c ≠ ';' ∧ c ≠ ' ' := by
  refine ⟨o.dropLast, o.getLast hne, (List.dropLast_append_getLast hne).symm, ?_, ?_, ?_⟩
  · intro x hx; exact (plainText_mem h (List.mem_of_mem_dropLast hx)).2.2
  · exact (plainText_mem h (List.getLast_mem hne)).2.2
  · exact (plainText_mem h (List.getLast_mem hne)).2.1

theorem lineText_two (name o1 o2 : List Char) : lineText name [o1, o2] = name ++ ' ' :: (o1 ++ ',' :: ' ' :: o2) := rfl

theorem lineText_three (name o1 o2 o3 : List Char) :
    lineText name [o1, o2, o3] = name ++ ' ' :: (o1 ++ ',' :: ' ' :: (o2 ++ ',' :: ' ' :: o3)) := rfl

/-- A line of two operands. -/
theorem parseLine_two {name o1 o2 : List Char} {x1 x2 : Operand} (hn : ∀ x ∈ name, x ≠ ' ' ∧ x ≠ ';')
    (h1 : plainText o1 = true) (h2 : plainText o2 = true) (hne : o2 ≠ []) (p1 : parseOperand o1 = some x1)
    (p2 : parseOperand o2 = some x2) :
    parseLine (lineText name [o1, o2]) = stmtOf name [x1, x2] := by
  obtain ⟨b, c, hb, hb1, hc1, hc2⟩ := plainText_split h2 hne
  have hr : ∀ x ∈ o1 ++ ',' :: ' ' :: b, x ≠ ';' := by
    intro x hx
    rcases List.mem_append.1 hx with h | h
    · exact (plainText_mem h1 h).2.2
    · rcases List.mem_cons.1 h with rfl | h
      · decide
      · rcases List.mem_cons.1 h with rfl | h
        · decide
        · exact hb1 x h
  have := parseLine_of hn hr hc1 hc2
  rw [show o1 ++ ',' :: ' ' :: b ++ [c] = o1 ++ ',' :: ' ' :: o2 by rw [hb]; simp] at this
  rw [lineText_two, this, splitOperands_cons fun x hx => (plainText_mem h1 hx).1, splitOperands_last fun x hx => (plainText_mem h2 hx).1]
  simp [p1, p2]

/-- A line of three operands. -/
theorem parseLine_three {name o1 o2 o3 : List Char} {x1 x2 x3 : Operand} (hn : ∀ x ∈ name, x ≠ ' ' ∧ x ≠ ';')
    (h1 : plainText o1 = true) (h2 : plainText o2 = true) (h3 : plainText o3 = true) (hne : o3 ≠ [])
    (p1 : parseOperand o1 = some x1) (p2 : parseOperand o2 = some x2) (p3 : parseOperand o3 = some x3) :
    parseLine (lineText name [o1, o2, o3]) = stmtOf name [x1, x2, x3] := by
  obtain ⟨b, c, hb, hb1, hc1, hc2⟩ := plainText_split h3 hne
  have hr : ∀ x ∈ o1 ++ ',' :: ' ' :: (o2 ++ ',' :: ' ' :: b), x ≠ ';' := by
    intro x hx
    simp only [List.mem_append, List.mem_cons] at hx
    rcases hx with h | rfl | rfl | h | rfl | rfl | h
    · exact (plainText_mem h1 h).2.2
    · decide
    · decide
    · exact (plainText_mem h2 h).2.2
    · decide
    · decide
    · exact hb1 x h
  have := parseLine_of hn hr hc1 hc2
  rw [show o1 ++ ',' :: ' ' :: (o2 ++ ',' :: ' ' :: b) ++ [c] = o1 ++ ',' :: ' ' :: (o2 ++ ',' :: ' ' :: o3) by
    rw [hb]; simp] at this
  rw [lineText_three, this, splitOperands_cons fun x hx => (plainText_mem h1 hx).1, splitOperands_cons fun x hx => (plainText_mem h2 hx).1,
    splitOperands_last fun x hx => (plainText_mem h3 hx).1]
  simp [p1, p2, p3]

end Sys2Proof.Machine
end

