-- ==== Sys2Proof/Laws/Decode.lean ====
section
/-! SUPPORT. The fields of a word as numbers, what each row of the opcode map selects, and the fields of a built word, each
said once: decoding and encoding are then linear arithmetic. -/

namespace Sys2Proof

/-! ### Fields (R81) -/

theorem fieldOp_toNat (w : Word) : (fieldOp w).toNat = w.toNat % 256 := by
  simp [fieldOp, BitVec.extractLsb'_toNat]

theorem fieldD_val (w : Word) : (fieldD w).val = w.toNat / 2 ^ 8 % 16 := by
  simp [fieldD, Nat.shiftRight_eq_div_pow]

theorem fieldA_val (w : Word) : (fieldA w).val = w.toNat / 2 ^ 12 % 16 := by
  simp [fieldA, Nat.shiftRight_eq_div_pow]

theorem fieldB_val (w : Word) : (fieldB w).val = w.toNat / 2 ^ 16 % 16 := by
  simp [fieldB, Nat.shiftRight_eq_div_pow]

theorem fieldS_val (w : Word) : (fieldS w).val = w.toNat / 2 ^ 16 % 16 := fieldB_val w

theorem fieldC_toNat (w : Word) : (fieldC w).toNat = w.toNat / 2 ^ 20 % 2 := by
  have h : fieldC w = w.toNat.testBit 20 := rfl
  rw [h, Nat.testBit_eq_decide_div_mod_eq]
  rcases Nat.mod_two_eq_zero_or_one (w.toNat / 2 ^ 20) with h | h <;> rw [h] <;> rfl

/-- A word is the sum of its fields (R81). -/
theorem word_eq_fields (w : Word) : w.toNat = (fieldOp w).toNat + 2 ^ 8 * ((fieldD w).val + 2 ^ 4 * ((fieldA w).val +
    2 ^ 4 * ((fieldB w).val + 2 ^ 4 * ((fieldC w).toNat + 2 * (w.toNat / 2 ^ 21))))) := by
  rw [fieldOp_toNat, fieldD_val, fieldA_val, fieldB_val, fieldC_toNat]
  omega

/-! ### Rows (R84) -/

/-- A conjunction works on low and high parts apart. -/
theorem land_parts {k a c : Nat} (b d : Nat) (ha : a < 2 ^ k) (hc : c < 2 ^ k) :
    (a + 2 ^ k * b) &&& (c + 2 ^ k * d) = (a &&& c) + 2 ^ k * (b &&& d) := by
  have hac : a &&& c < 2 ^ k := lt_of_le_of_lt Nat.and_le_left ha
  apply Nat.eq_of_testBit_eq
  intro i
  rw [Nat.testBit_and, Nat.add_comm a, Nat.add_comm c, Nat.add_comm (a &&& c), Nat.testBit_two_pow_mul_add _ ha,
    Nat.testBit_two_pow_mul_add _ hc, Nat.testBit_two_pow_mul_add _ hac]
  split <;> simp [Nat.testBit_and]

/-- A must-be-zero field counts in a masked word, a free field does not. -/
def masked (must : Bool) (n : Nat) : Nat := if must then n else 0

/-- The mask that covers OP and RSV, and those of D, A, B and C that are named. -/
def maskWith (d a b c : Bool) : Nat :=
  255 + 2 ^ 8 * (masked d 15 + 2 ^ 4 * (masked a 15 + 2 ^ 4 * (masked b 15 + 2 ^ 4 * (masked c 1 + 2 ^ 1 * 2047))))

theorem land_masked {k n : Nat} (must : Bool) (hn : n < 2 ^ k) : n &&& masked must (2 ^ k - 1) = masked must n := by
  unfold masked
  cases must
  · simp
  · simp only [if_true]
    rw [Nat.and_two_pow_sub_one_eq_mod, Nat.mod_eq_of_lt hn]

theorem masked_lt {k n : Nat} (must : Bool) (hn : n < 2 ^ k) : masked must n < 2 ^ k := by
  unfold masked; split
  · exact hn
  · exact Nat.two_pow_pos k

/-- What a mask leaves of a word, field by field. -/
theorem toNat_and_mask (w : Word) (d a b c : Bool) : w.toNat &&& maskWith d a b c = (fieldOp w).toNat +
    2 ^ 8 * (masked d (fieldD w).val + 2 ^ 4 * (masked a (fieldA w).val + 2 ^ 4 * (masked b (fieldB w).val +
      2 ^ 4 * (masked c (fieldC w).toNat + 2 * (w.toNat / 2 ^ 21))))) := by
  have hop := (fieldOp w).isLt
  have hd : (fieldD w).val < 2 ^ 4 := (fieldD w).isLt
  have ha : (fieldA w).val < 2 ^ 4 := (fieldA w).isLt
  have hb : (fieldB w).val < 2 ^ 4 := (fieldB w).isLt
  have hc : (fieldC w).toNat < 2 ^ 1 := (fieldC w).toNat_lt
  have hr : w.toNat / 2 ^ 21 < 2 ^ 11 := by have := w.isLt; omega
  conv_lhs => rw [word_eq_fields w]
  unfold maskWith
  rw [land_parts (k := 8) _ _ hop (by decide), land_parts (k := 4) _ _ hd (masked_lt d (by decide)),
    land_parts (k := 4) _ _ ha (masked_lt a (by decide)), land_parts (k := 4) _ _ hb (masked_lt b (by decide)),
    show (fieldC w).toNat + 2 * (w.toNat / 2 ^ 21) = (fieldC w).toNat + 2 ^ 1 * (w.toNat / 2 ^ 21) by ring,
    land_parts (k := 1) _ _ hc (masked_lt c (by decide)), show (255 : Nat) = 2 ^ 8 - 1 by decide,
    Nat.and_two_pow_sub_one_eq_mod, Nat.mod_eq_of_lt hop, show (15 : Nat) = 2 ^ 4 - 1 by decide, land_masked d hd, land_masked a ha, land_masked b hb,
    show masked c 1 = masked c (2 ^ 1 - 1) by rfl, land_masked c hc,
    show (2047 : Nat) = 2 ^ 11 - 1 by decide, Nat.and_two_pow_sub_one_eq_mod, Nat.mod_eq_of_lt hr]
  ring

/-- A row whose mask covers OP, RSV and the named fields selects exactly the words with its opcode and those fields zero
(R84, R87). -/
theorem selects_iff {row : OpcodeRow} {d a b c : Bool} (hm : row.mask.toNat = maskWith d a b c)
    (hp : row.pattern.toNat = row.op.toNat) (w : Word) : row.selects w = true ↔
      fieldOp w = row.op ∧ masked d (fieldD w).val = 0 ∧ masked a (fieldA w).val = 0 ∧ masked b (fieldB w).val = 0 ∧
        masked c (fieldC w).toNat = 0 ∧ w.toNat / 2 ^ 21 = 0 := by
  have hw := (fieldOp w).isLt
  have ho := row.op.isLt
  rw [OpcodeRow.selects, beq_iff_eq, ← BitVec.toNat_inj, BitVec.toNat_and, hm, hp, toNat_and_mask, ← BitVec.toNat_inj]
  omega

theorem selects_fadd (w : Word) :
    rowFadd.selects w = true ↔ fieldOp w = 1 ∧ (fieldC w).toNat = 0 ∧ w.toNat / 2 ^ 21 = 0 := by
  rw [selects_iff (d := false) (a := false) (b := false) (c := true) rfl rfl]; simp [masked, rowFadd]

theorem selects_fsub (w : Word) :
    rowFsub.selects w = true ↔ fieldOp w = 2 ∧ (fieldC w).toNat = 0 ∧ w.toNat / 2 ^ 21 = 0 := by
  rw [selects_iff (d := false) (a := false) (b := false) (c := true) rfl rfl]; simp [masked, rowFsub]

theorem selects_fmul (w : Word) :
    rowFmul.selects w = true ↔ fieldOp w = 3 ∧ (fieldC w).toNat = 0 ∧ w.toNat / 2 ^ 21 = 0 := by
  rw [selects_iff (d := false) (a := false) (b := false) (c := true) rfl rfl]; simp [masked, rowFmul]

theorem selects_fsqr (w : Word) : rowFsqr.selects w = true ↔
    fieldOp w = 4 ∧ (fieldB w).val = 0 ∧ (fieldC w).toNat = 0 ∧ w.toNat / 2 ^ 21 = 0 := by
  rw [selects_iff (d := false) (a := false) (b := true) (c := true) rfl rfl]; simp [masked, rowFsqr]

theorem selects_fneg (w : Word) : rowFneg.selects w = true ↔
    fieldOp w = 5 ∧ (fieldB w).val = 0 ∧ (fieldC w).toNat = 0 ∧ w.toNat / 2 ^ 21 = 0 := by
  rw [selects_iff (d := false) (a := false) (b := true) (c := true) rfl rfl]; simp [masked, rowFneg]

theorem selects_finv (w : Word) : rowFinv.selects w = true ↔
    fieldOp w = 6 ∧ (fieldB w).val = 0 ∧ (fieldC w).toNat = 0 ∧ w.toNat / 2 ^ 21 = 0 := by
  rw [selects_iff (d := false) (a := false) (b := true) (c := true) rfl rfl]; simp [masked, rowFinv]

theorem selects_fcswap (w : Word) :
    rowFcswap.selects w = true ↔ fieldOp w = 7 ∧ (fieldD w).val = 0 ∧ w.toNat / 2 ^ 21 = 0 := by
  rw [selects_iff (d := true) (a := false) (b := false) (c := false) rfl rfl]; simp [masked, rowFcswap]

theorem selects_fld (w : Word) : rowFld.selects w = true ↔
    fieldOp w = 8 ∧ (fieldA w).val = 0 ∧ (fieldC w).toNat = 0 ∧ w.toNat / 2 ^ 21 = 0 := by
  rw [selects_iff (d := false) (a := true) (b := false) (c := true) rfl rfl]; simp [masked, rowFld]

theorem selects_fst (w : Word) : rowFst.selects w = true ↔
    fieldOp w = 9 ∧ (fieldD w).val = 0 ∧ (fieldC w).toNat = 0 ∧ w.toNat / 2 ^ 21 = 0 := by
  rw [selects_iff (d := true) (a := false) (b := false) (c := true) rfl rfl]; simp [masked, rowFst]

/-! ### Built words (R83) -/

/-- The number of a built word. -/
theorem buildWord_toNat {op d a b c : Nat} (ho : op < 256) (hd : d < 16) (ha : a < 16) (hb : b < 16) (hc : c < 2) :
    (buildWord op d a b c).toNat = op + 2 ^ 8 * (d + 2 ^ 4 * (a + 2 ^ 4 * (b + 2 ^ 4 * c))) := by
  simp only [buildWord, BitVec.toNat_ofNat, Nat.shiftLeft_eq]
  omega

/-- The fields of a built word are the numbers it was built from, and RSV is 0. -/
theorem buildWord_fields {op d a b c : Nat} (ho : op < 256) (hd : d < 16) (ha : a < 16) (hb : b < 16) (hc : c < 2) :
    (fieldOp (buildWord op d a b c)).toNat = op ∧ (fieldD (buildWord op d a b c)).val = d ∧
      (fieldA (buildWord op d a b c)).val = a ∧ (fieldB (buildWord op d a b c)).val = b ∧
        (fieldC (buildWord op d a b c)).toNat = c ∧ (buildWord op d a b c).toNat / 2 ^ 21 = 0 := by
  rw [fieldOp_toNat, fieldD_val, fieldA_val, fieldB_val, fieldC_toNat, buildWord_toNat ho hd ha hb hc]
  omega

/-! ### The decoder (R85) -/

theorem decode_of_row {w : Word} {row : OpcodeRow} {i : Instr} (h : rowOf w = some (row, i)) :
    decode w = if row.selects w then .ok i else .error .reservedField := by
  rw [decode, h]

theorem decode_of_no_row {w : Word} (h : rowOf w = none) : decode w = .error .illegalOpcode := by
  rw [decode, h]

/-- A word that decodes has a row that selects it. -/
theorem decode_ok_iff {w : Word} {i : Instr} : decode w = .ok i ↔ ∃ row, rowOf w = some (row, i) ∧ row.selects w = true := by
  unfold decode
  split
  · rename_i h; simp [h]
  · rename_i row j h
    split
    · rename_i hs; simp [h, hs]
    · rename_i hs; simp [h, hs]

/-- The decoder never answers CMD_BUSY. -/
theorem decode_ne_cmdBusy (w : Word) : decode w ≠ .error .cmdBusy := by
  unfold decode
  split
  · simp
  · split <;> simp

end Sys2Proof
end

