-- ==== Sys2Proof/Laws/Memory.lean ====
section
/-! SUPPORT. Operand RAM: a read after a write, the canonical form, and the multi-byte accesses, each said once. -/

namespace Sys2Proof.Machine

open Sys2Proof

@[simp] theorem Memory.readByte_nil (a : Nat) : Memory.readByte [] a = unlistedByte := rfl

theorem Memory.readByte_cons (k : Nat) (c : Byte) (m : Memory) (a : Nat) :
    Memory.readByte ((k, c) :: m) a = if k = a then c else m.readByte a := rfl

/-- Below its lower bound a canonical memory lists nothing. -/
theorem Memory.readByte_below {lo a : Nat} {m : Memory} (h : Memory.wfFrom lo m = true) (ha : a < lo) :
    m.readByte a = unlistedByte := by
  induction m generalizing lo with
  | nil => rfl
  | cons e m ih =>
    obtain ⟨k, c⟩ := e
    simp only [Memory.wfFrom, Bool.and_eq_true, decide_eq_true_eq] at h
    rw [Memory.readByte_cons, if_neg (by omega), ih h.2 (by omega)]

theorem Memory.wfFrom_mono {lo lo' : Nat} {m : Memory} (h : Memory.wfFrom lo m = true) (hl : lo' ≤ lo) :
    Memory.wfFrom lo' m = true := by
  cases m with
  | nil => rfl
  | cons e m =>
    simp only [Memory.wfFrom, Bool.and_eq_true, decide_eq_true_eq] at h ⊢
    exact ⟨⟨⟨by omega, h.1.1.2⟩, h.1.2⟩, h.2⟩

theorem Memory.readByte_putFront {a : Nat} {m : Memory} (h : Memory.wfFrom (a + 1) m = true) (b : Byte) (x : Nat) :
    (Memory.putFront a b m).readByte x = if x = a then b else m.readByte x := by
  unfold Memory.putFront
  by_cases hx : x = a
  · subst hx
    split
    · rename_i hb; rw [Memory.readByte_below h (by omega), if_pos rfl, hb]
    · simp [Memory.readByte_cons]
  · rw [if_neg hx]
    split
    · rfl
    · rw [Memory.readByte_cons, if_neg (Ne.symm hx)]

theorem Memory.putFront_wfFrom {lo a : Nat} {m : Memory} (hm : Memory.wfFrom (a + 1) m = true) (hlo : lo ≤ a)
    (ha : a < Config.opramBytes) (b : Byte) : Memory.wfFrom lo (Memory.putFront a b m) = true := by
  unfold Memory.putFront
  split
  · exact Memory.wfFrom_mono hm (by omega)
  · simp_all [Memory.wfFrom]

/-- What a byte write leaves, said once: the canonical form from any bound at or below the address, and every byte's value. -/
theorem Memory.writeByte_spec {lo a : Nat} {m : Memory} (h : Memory.wfFrom lo m = true) (hlo : lo ≤ a)
    (ha : a < Config.opramBytes) (b : Byte) :
    Memory.wfFrom lo (m.writeByte a b) = true ∧
      ∀ x, (m.writeByte a b).readByte x = if x = a then b else m.readByte x := by
  induction m generalizing lo with
  | nil => exact ⟨Memory.putFront_wfFrom rfl hlo ha b, Memory.readByte_putFront rfl b⟩
  | cons e m ih =>
    obtain ⟨k, c⟩ := e
    have h' := h
    simp only [Memory.wfFrom, Bool.and_eq_true, decide_eq_true_eq] at h'
    obtain ⟨⟨⟨hk, hk'⟩, hc⟩, hm⟩ := h'
    simp only [Memory.writeByte]
    split
    · rename_i hak
      have hf : Memory.wfFrom (a + 1) ((k, c) :: m) = true := by
        simp only [Memory.wfFrom, Bool.and_eq_true, decide_eq_true_eq]
        exact ⟨⟨⟨by omega, hk'⟩, hc⟩, hm⟩
      exact ⟨Memory.putFront_wfFrom hf hlo ha b, Memory.readByte_putFront hf b⟩
    · split
      · rename_i _ hak
        subst hak
        refine ⟨Memory.putFront_wfFrom hm hlo ha b, fun x => ?_⟩
        rw [Memory.readByte_putFront hm, Memory.readByte_cons]
        by_cases hx : x = a
        · simp [hx]
        · rw [if_neg hx, if_neg hx, if_neg (by omega)]
      · rename_i h1 h2
        obtain ⟨w1, w2⟩ := ih hm (by omega)
        refine ⟨?_, fun x => ?_⟩
        · simp only [Memory.wfFrom, Bool.and_eq_true, decide_eq_true_eq]
          exact ⟨⟨⟨hk, hk'⟩, hc⟩, w1⟩
        · rw [Memory.readByte_cons, Memory.readByte_cons, w2]
          by_cases hx : x = a
          · rw [if_neg (by omega), if_pos hx, if_pos hx]
          · rw [if_neg hx, if_neg hx]

/-- A byte write keeps the canonical form. -/
theorem Memory.writeByte_wf {m : Memory} (h : m.wf = true) {a : Nat} (ha : a < Config.opramBytes) (b : Byte) :
    Memory.wf (m.writeByte a b) = true :=
  (Memory.writeByte_spec h (Nat.zero_le a) ha b).1

/-- A byte read after a byte write. -/
theorem Memory.readByte_writeByte {m : Memory} (h : m.wf = true) {a : Nat} (ha : a < Config.opramBytes) (b : Byte) (x : Nat) :
    (m.writeByte a b).readByte x = if x = a then b else m.readByte x :=
  (Memory.writeByte_spec h (Nat.zero_le a) ha b).2 x

/-- Equal contents are equal data: the canonical form is unique. -/
theorem Memory.wfFrom_ext {lo : Nat} {m n : Memory} (hm : Memory.wfFrom lo m = true) (hn : Memory.wfFrom lo n = true)
    (h : ∀ a, m.readByte a = n.readByte a) : m = n := by
  induction m generalizing lo n with
  | nil =>
    cases n with
    | nil => rfl
    | cons e n =>
      obtain ⟨k, c⟩ := e
      have := h k
      simp only [Memory.wfFrom, Bool.and_eq_true, decide_eq_true_eq] at hn
      simp [Memory.readByte_cons] at this
      exact absurd this.symm hn.1.2
  | cons e m ih =>
    obtain ⟨k, c⟩ := e
    cases n with
    | nil =>
      have := h k
      simp only [Memory.wfFrom, Bool.and_eq_true, decide_eq_true_eq] at hm
      simp [Memory.readByte_cons] at this
      exact absurd this hm.1.2
    | cons e' n =>
      obtain ⟨k', c'⟩ := e'
      simp only [Memory.wfFrom, Bool.and_eq_true, decide_eq_true_eq] at hm hn
      have hkk : k = k' := by
        rcases Nat.lt_trichotomy k k' with hlt | heq | hgt
        · have := h k
          rw [Memory.readByte_cons, if_pos rfl, Memory.readByte_cons, if_neg (by omega),
            Memory.readByte_below hn.2 (by omega)] at this
          exact absurd this hm.1.2
        · exact heq
        · have := h k'
          rw [Memory.readByte_cons, if_neg (by omega), Memory.readByte_cons, if_pos rfl,
            Memory.readByte_below hm.2 (by omega)] at this
          exact absurd this.symm hn.1.2
      subst hkk
      have hcc : c = c' := by simpa [Memory.readByte_cons] using h k
      subst hcc
      refine congrArg _ (ih hm.2 hn.2 fun a => ?_)
      by_cases ha : k = a
      · subst ha
        rw [Memory.readByte_below hm.2 (by omega), Memory.readByte_below hn.2 (by omega)]
      · simpa [Memory.readByte_cons, ha] using h a

/-- Equal contents are equal data, for whole memories. -/
theorem Memory.wf_ext {m n : Memory} (hm : m.wf = true) (hn : n.wf = true)
    (h : ∀ a, m.readByte a = n.readByte a) : m = n :=
  Memory.wfFrom_ext hm hn h

/-! ### Multi-byte accesses -/

theorem Memory.read_zero (m : Memory) (addr : Nat) : m.read addr 0 = 0 := rfl

theorem Memory.read_succ (m : Memory) (addr n : Nat) :
    m.read addr (n + 1) = (m.readByte addr).toNat + 2 ^ 8 * m.read (addr + 1) n := rfl

theorem Memory.write_zero (m : Memory) (addr v : Nat) : m.write addr 0 v = m := rfl

theorem Memory.write_succ (m : Memory) (addr n v : Nat) :
    m.write addr (n + 1) v = Memory.write (m.writeByte addr (BitVec.ofNat 8 v)) (addr + 1) n (v / 2 ^ 8) := rfl

/-- An n-byte integer is below 2 ^ (8n). -/
theorem Memory.read_lt (m : Memory) (addr n : Nat) : m.read addr n < 2 ^ (8 * n) := by
  induction n generalizing addr with
  | zero => simp [Memory.read_zero]
  | succ n ih =>
    rw [Memory.read_succ, show 8 * (n + 1) = 8 * n + 8 by ring, pow_add]
    have h1 := (m.readByte addr).isLt
    have h2 := ih (addr + 1)
    omega

/-- MemRead is the little-endian sum of R10. -/
theorem Memory.read_eq_sum (m : Memory) (addr n : Nat) :
    m.read addr n = ∑ k ∈ Finset.range n, (m.readByte (addr + k)).toNat * 2 ^ (8 * k) := by
  induction n generalizing addr with
  | zero => simp [Memory.read_zero]
  | succ n ih =>
    rw [Memory.read_succ, ih, Finset.sum_range_succ', Finset.mul_sum]
    simp only [Nat.mul_zero, pow_zero, Nat.mul_one, Nat.add_zero]
    rw [Nat.add_comm]
    congr 1
    refine Finset.sum_congr rfl fun k _ => ?_
    rw [show addr + 1 + k = addr + (k + 1) by ring, show 8 * (k + 1) = 8 * k + 8 by ring, pow_add]
    ring

/-- A read depends on the bytes it covers only. -/
theorem Memory.read_congr {m m' : Memory} {addr n : Nat}
    (h : ∀ a, addr ≤ a → a < addr + n → m.readByte a = m'.readByte a) : m.read addr n = m'.read addr n := by
  rw [Memory.read_eq_sum, Memory.read_eq_sum]
  refine Finset.sum_congr rfl fun k hk => ?_
  rw [h (addr + k) (by omega) (by have := Finset.mem_range.1 hk; omega)]

/-- Byte k of what was read. -/
theorem Memory.read_byte (m : Memory) (addr n k : Nat) (hk : k < n) :
    BitVec.ofNat 8 (m.read addr n >>> (8 * k)) = m.readByte (addr + k) := by
  induction n generalizing addr k with
  | zero => omega
  | succ n ih =>
    rw [Memory.read_succ]
    have hb := (m.readByte addr).isLt
    cases k with
    | zero =>
      apply BitVec.eq_of_toNat_eq
      simp only [Nat.mul_zero, Nat.shiftRight_zero, BitVec.toNat_ofNat, Nat.add_zero]
      omega
    | succ k =>
      have hs : ((m.readByte addr).toNat + 2 ^ 8 * m.read (addr + 1) n) >>> (8 * (k + 1))
          = m.read (addr + 1) n >>> (8 * k) := by
        rw [show 8 * (k + 1) = 8 + 8 * k by ring, Nat.shiftRight_add]
        congr 1
        rw [Nat.shiftRight_eq_div_pow]
        omega
      rw [hs, ih (addr + 1) k (by omega)]
      congr 1
      ring

/-- What a multi-byte write leaves, said once: the canonical form, byte addr + k equal to (v >> 8k) and 0xFF, every other
byte as before (R10). -/
theorem Memory.write_spec {m : Memory} (h : m.wf = true) {addr n : Nat} (ha : addr + n ≤ Config.opramBytes) (v : Nat) :
    (m.write addr n v).wf = true ∧
      ∀ x, (m.write addr n v).readByte x =
        if addr ≤ x ∧ x < addr + n then BitVec.ofNat 8 (v >>> (8 * (x - addr))) else m.readByte x := by
  induction n generalizing m addr v with
  | zero =>
    refine ⟨h, fun x => ?_⟩
    rw [Memory.write_zero, if_neg (by omega)]
  | succ n ih =>
    rw [Memory.write_succ]
    obtain ⟨w1, w2⟩ := ih (m := m.writeByte addr (BitVec.ofNat 8 v)) (Memory.writeByte_wf h (by omega) _)
      (addr := addr + 1) (by omega) (v / 2 ^ 8)
    refine ⟨w1, fun x => ?_⟩
    rw [w2, Memory.readByte_writeByte h (by omega)]
    by_cases hx : x = addr
    · subst hx
      rw [if_neg (by omega), if_pos rfl, if_pos (by omega)]
      simp
    · rw [if_neg hx]
      by_cases hr : addr + 1 ≤ x ∧ x < addr + 1 + n
      · rw [if_pos hr, if_pos (by omega)]
        congr 1
        rw [show 8 * (x - addr) = 8 + 8 * (x - (addr + 1)) by omega, Nat.shiftRight_add, Nat.shiftRight_eq_div_pow v 8]
      · rw [if_neg hr, if_neg (by omega)]

/-- A multi-byte write keeps the canonical form. -/
theorem Memory.write_wf {m : Memory} (h : m.wf = true) {addr n : Nat} (ha : addr + n ≤ Config.opramBytes) (v : Nat) :
    (m.write addr n v).wf = true :=
  (Memory.write_spec h ha v).1

theorem Memory.readByte_write {m : Memory} (h : m.wf = true) {addr n : Nat} (ha : addr + n ≤ Config.opramBytes) (v x : Nat) :
    (m.write addr n v).readByte x =
      if addr ≤ x ∧ x < addr + n then BitVec.ofNat 8 (v >>> (8 * (x - addr))) else m.readByte x :=
  (Memory.write_spec h ha v).2 x

/-- Reading back what was written. -/
theorem Memory.read_write_same {m : Memory} (h : m.wf = true) {addr n : Nat} (ha : addr + n ≤ Config.opramBytes) {v : Nat}
    (hv : v < 2 ^ (8 * n)) : (m.write addr n v).read addr n = v := by
  induction n generalizing m addr v with
  | zero => simp_all [Memory.read_zero]
  | succ n ih =>
    have hb : (m.write addr (n + 1) v).readByte addr = BitVec.ofNat 8 v := by
      rw [Memory.readByte_write h ha, if_pos (by omega)]
      simp
    rw [Memory.read_succ, hb, Memory.write_succ, ih (Memory.writeByte_wf h (by omega) _) (by omega)
      (by rw [show 8 * (n + 1) = 8 * n + 8 by ring, pow_add] at hv; omega)]
    simp only [BitVec.toNat_ofNat]
    omega

/-- The words of a longer integer are the words at the addresses above (R56). -/
theorem Memory.read_shift (m : Memory) (addr n j : Nat) : m.read addr (j + n) >>> (8 * j) = m.read (addr + j) n := by
  induction j generalizing addr with
  | zero => simp
  | succ j ih =>
    have hb := (m.readByte addr).isLt
    rw [show j + 1 + n = j + n + 1 by ring, Memory.read_succ, show 8 * (j + 1) = 8 + 8 * j by ring, Nat.shiftRight_add,
      Nat.shiftRight_eq_div_pow _ 8, show ((m.readByte addr).toNat + 2 ^ 8 * m.read (addr + 1) (j + n)) / 2 ^ 8
        = m.read (addr + 1) (j + n) by omega, ih, show addr + 1 + j = addr + (j + 1) by ring]

@[simp] theorem reset_opram_wf : State.reset.opram.wf = true := rfl

/-- A slot lies inside OPRAM (R59). -/
theorem slotAddress_in_opram (k : Slot) : slotAddress k + Config.slotBytes ≤ Config.opramBytes := by
  have := k.isLt
  simp only [slotAddress, Config.slotBytes, Config.opramBytes, Config.nslot] at *
  omega

/-- A slot is below 2^256. -/
theorem State.readSlot_lt (s : State) (k : Slot) : s.readSlot k < 2 ^ 256 :=
  Memory.read_lt s.opram (slotAddress k) Config.slotBytes

/-- A slot read is the little-endian integer of its 32 bytes (R11). -/
theorem State.readSlot_eq_sum (s : State) (k : Slot) :
    s.readSlot k = ∑ j ∈ Finset.range 32, (s.opram.readByte (slotAddress k + j)).toNat * 2 ^ (8 * j) :=
  Memory.read_eq_sum s.opram (slotAddress k) Config.slotBytes

end Sys2Proof.Machine
end

