-- ==== Sys2Proof/Laws/State.lean ====
section
/-! SUPPORT. One lemma per field of State per update of State, true by unfolding, so that later proofs unfold no record
update; and the accessors over them. -/

namespace Sys2Proof.Machine

open Sys2Proof

/-! ### `State.writeF` -/

@[simp] theorem State.writeF_f (s : State) (i : Reg) (v : FieldValue) : (s.writeF i v).f = s.f.set i.val v i.isLt := rfl
@[simp] theorem State.writeF_opram (s : State) (i : Reg) (v : FieldValue) : (s.writeF i v).opram = s.opram := rfl
@[simp] theorem State.writeF_unit (s : State) (i : Reg) (v : FieldValue) : (s.writeF i v).unit = s.unit := rfl
@[simp] theorem State.writeF_done (s : State) (i : Reg) (v : FieldValue) : (s.writeF i v).done = s.done := rfl
@[simp] theorem State.writeF_err (s : State) (i : Reg) (v : FieldValue) : (s.writeF i v).err = s.err := rfl
@[simp] theorem State.writeF_errCause (s : State) (i : Reg) (v : FieldValue) : (s.writeF i v).errCause = s.errCause := rfl
@[simp] theorem State.writeF_errCmd (s : State) (i : Reg) (v : FieldValue) : (s.writeF i v).errCmd = s.errCmd := rfl
@[simp] theorem State.writeF_ieDone (s : State) (i : Reg) (v : FieldValue) : (s.writeF i v).ieDone = s.ieDone := rfl
@[simp] theorem State.writeF_ieErr (s : State) (i : Reg) (v : FieldValue) : (s.writeF i v).ieErr = s.ieErr := rfl
@[simp] theorem State.writeF_stalled (s : State) (i : Reg) (v : FieldValue) : (s.writeF i v).stalled = s.stalled := rfl
@[simp] theorem State.writeF_inbox (s : State) (i : Reg) (v : FieldValue) : (s.writeF i v).inbox = s.inbox := rfl
@[simp] theorem State.writeF_responses (s : State) (i : Reg) (v : FieldValue) : (s.writeF i v).responses = s.responses := rfl
@[simp] theorem State.writeF_freeIndex (s : State) (i : Reg) (v : FieldValue) : (s.writeF i v).freeIndex = s.freeIndex := rfl

/-! ### `State.writeSlot` -/

@[simp] theorem State.writeSlot_f (s : State) (k : Slot) (v : Nat) : (s.writeSlot k v).f = s.f := by
  simp only [State.writeSlot]
@[simp] theorem State.writeSlot_opram (s : State) (k : Slot) (v : Nat) : (s.writeSlot k v).opram = s.opram.write (slotAddress k) Config.slotBytes v := by
  simp only [State.writeSlot]
@[simp] theorem State.writeSlot_unit (s : State) (k : Slot) (v : Nat) : (s.writeSlot k v).unit = s.unit := by
  simp only [State.writeSlot]
@[simp] theorem State.writeSlot_done (s : State) (k : Slot) (v : Nat) : (s.writeSlot k v).done = s.done := by
  simp only [State.writeSlot]
@[simp] theorem State.writeSlot_err (s : State) (k : Slot) (v : Nat) : (s.writeSlot k v).err = s.err := by
  simp only [State.writeSlot]
@[simp] theorem State.writeSlot_errCause (s : State) (k : Slot) (v : Nat) : (s.writeSlot k v).errCause = s.errCause := by
  simp only [State.writeSlot]
@[simp] theorem State.writeSlot_errCmd (s : State) (k : Slot) (v : Nat) : (s.writeSlot k v).errCmd = s.errCmd := by
  simp only [State.writeSlot]
@[simp] theorem State.writeSlot_ieDone (s : State) (k : Slot) (v : Nat) : (s.writeSlot k v).ieDone = s.ieDone := by
  simp only [State.writeSlot]
@[simp] theorem State.writeSlot_ieErr (s : State) (k : Slot) (v : Nat) : (s.writeSlot k v).ieErr = s.ieErr := by
  simp only [State.writeSlot]
@[simp] theorem State.writeSlot_stalled (s : State) (k : Slot) (v : Nat) : (s.writeSlot k v).stalled = s.stalled := by
  simp only [State.writeSlot]
@[simp] theorem State.writeSlot_inbox (s : State) (k : Slot) (v : Nat) : (s.writeSlot k v).inbox = s.inbox := by
  simp only [State.writeSlot]
@[simp] theorem State.writeSlot_responses (s : State) (k : Slot) (v : Nat) : (s.writeSlot k v).responses = s.responses := by
  simp only [State.writeSlot]
@[simp] theorem State.writeSlot_freeIndex (s : State) (k : Slot) (v : Nat) : (s.writeSlot k v).freeIndex = s.freeIndex := by
  simp only [State.writeSlot]

/-! ### `State.recordError` -/

@[simp] theorem State.recordError_f (s : State) (e : CommandError) (w : Word) : (s.recordError e w).f = s.f := rfl
@[simp] theorem State.recordError_opram (s : State) (e : CommandError) (w : Word) : (s.recordError e w).opram = s.opram := rfl
@[simp] theorem State.recordError_unit (s : State) (e : CommandError) (w : Word) : (s.recordError e w).unit = s.unit := rfl
@[simp] theorem State.recordError_done (s : State) (e : CommandError) (w : Word) : (s.recordError e w).done = s.done := rfl
@[simp] theorem State.recordError_err (s : State) (e : CommandError) (w : Word) : (s.recordError e w).err = true := rfl
@[simp] theorem State.recordError_errCause (s : State) (e : CommandError) (w : Word) : (s.recordError e w).errCause = e.code := rfl
@[simp] theorem State.recordError_errCmd (s : State) (e : CommandError) (w : Word) : (s.recordError e w).errCmd = w := rfl
@[simp] theorem State.recordError_ieDone (s : State) (e : CommandError) (w : Word) : (s.recordError e w).ieDone = s.ieDone := rfl
@[simp] theorem State.recordError_ieErr (s : State) (e : CommandError) (w : Word) : (s.recordError e w).ieErr = s.ieErr := rfl
@[simp] theorem State.recordError_stalled (s : State) (e : CommandError) (w : Word) : (s.recordError e w).stalled = s.stalled := rfl
@[simp] theorem State.recordError_inbox (s : State) (e : CommandError) (w : Word) : (s.recordError e w).inbox = s.inbox := rfl
@[simp] theorem State.recordError_responses (s : State) (e : CommandError) (w : Word) : (s.recordError e w).responses = s.responses := rfl
@[simp] theorem State.recordError_freeIndex (s : State) (e : CommandError) (w : Word) : (s.recordError e w).freeIndex = s.freeIndex := rfl

/-! ### `State.clearError` -/

@[simp] theorem State.clearError_f (s : State) : s.clearError.f = s.f := rfl
@[simp] theorem State.clearError_opram (s : State) : s.clearError.opram = s.opram := rfl
@[simp] theorem State.clearError_unit (s : State) : s.clearError.unit = s.unit := rfl
@[simp] theorem State.clearError_done (s : State) : s.clearError.done = s.done := rfl
@[simp] theorem State.clearError_err (s : State) : s.clearError.err = false := rfl
@[simp] theorem State.clearError_errCause (s : State) : s.clearError.errCause = 0 := rfl
@[simp] theorem State.clearError_errCmd (s : State) : s.clearError.errCmd = 0 := rfl
@[simp] theorem State.clearError_ieDone (s : State) : s.clearError.ieDone = s.ieDone := rfl
@[simp] theorem State.clearError_ieErr (s : State) : s.clearError.ieErr = s.ieErr := rfl
@[simp] theorem State.clearError_stalled (s : State) : s.clearError.stalled = s.stalled := rfl
@[simp] theorem State.clearError_inbox (s : State) : s.clearError.inbox = s.inbox := rfl
@[simp] theorem State.clearError_responses (s : State) : s.clearError.responses = s.responses := rfl
@[simp] theorem State.clearError_freeIndex (s : State) : s.clearError.freeIndex = s.freeIndex := rfl

/-! ### `State.withInbox` -/

@[simp] theorem State.withInbox_f (s : State) (moves : List HostMove) : (s.withInbox moves).f = s.f := rfl
@[simp] theorem State.withInbox_opram (s : State) (moves : List HostMove) : (s.withInbox moves).opram = s.opram := rfl
@[simp] theorem State.withInbox_unit (s : State) (moves : List HostMove) : (s.withInbox moves).unit = s.unit := rfl
@[simp] theorem State.withInbox_done (s : State) (moves : List HostMove) : (s.withInbox moves).done = s.done := rfl
@[simp] theorem State.withInbox_err (s : State) (moves : List HostMove) : (s.withInbox moves).err = s.err := rfl
@[simp] theorem State.withInbox_errCause (s : State) (moves : List HostMove) : (s.withInbox moves).errCause = s.errCause := rfl
@[simp] theorem State.withInbox_errCmd (s : State) (moves : List HostMove) : (s.withInbox moves).errCmd = s.errCmd := rfl
@[simp] theorem State.withInbox_ieDone (s : State) (moves : List HostMove) : (s.withInbox moves).ieDone = s.ieDone := rfl
@[simp] theorem State.withInbox_ieErr (s : State) (moves : List HostMove) : (s.withInbox moves).ieErr = s.ieErr := rfl
@[simp] theorem State.withInbox_stalled (s : State) (moves : List HostMove) : (s.withInbox moves).stalled = s.stalled := rfl
@[simp] theorem State.withInbox_inbox (s : State) (moves : List HostMove) : (s.withInbox moves).inbox = moves := rfl
@[simp] theorem State.withInbox_responses (s : State) (moves : List HostMove) : (s.withInbox moves).responses = s.responses := rfl
@[simp] theorem State.withInbox_freeIndex (s : State) (moves : List HostMove) : (s.withInbox moves).freeIndex = s.freeIndex := rfl

/-! ### `State.withUnit` -/

@[simp] theorem State.withUnit_f (s : State) (u : UnitState) : (s.withUnit u).f = s.f := rfl
@[simp] theorem State.withUnit_opram (s : State) (u : UnitState) : (s.withUnit u).opram = s.opram := rfl
@[simp] theorem State.withUnit_unit (s : State) (u : UnitState) : (s.withUnit u).unit = u := rfl
@[simp] theorem State.withUnit_done (s : State) (u : UnitState) : (s.withUnit u).done = s.done := rfl
@[simp] theorem State.withUnit_err (s : State) (u : UnitState) : (s.withUnit u).err = s.err := rfl
@[simp] theorem State.withUnit_errCause (s : State) (u : UnitState) : (s.withUnit u).errCause = s.errCause := rfl
@[simp] theorem State.withUnit_errCmd (s : State) (u : UnitState) : (s.withUnit u).errCmd = s.errCmd := rfl
@[simp] theorem State.withUnit_ieDone (s : State) (u : UnitState) : (s.withUnit u).ieDone = s.ieDone := rfl
@[simp] theorem State.withUnit_ieErr (s : State) (u : UnitState) : (s.withUnit u).ieErr = s.ieErr := rfl
@[simp] theorem State.withUnit_stalled (s : State) (u : UnitState) : (s.withUnit u).stalled = s.stalled := rfl
@[simp] theorem State.withUnit_inbox (s : State) (u : UnitState) : (s.withUnit u).inbox = s.inbox := rfl
@[simp] theorem State.withUnit_responses (s : State) (u : UnitState) : (s.withUnit u).responses = s.responses := rfl
@[simp] theorem State.withUnit_freeIndex (s : State) (u : UnitState) : (s.withUnit u).freeIndex = s.freeIndex := rfl

/-! ### `State.withStalled` -/

@[simp] theorem State.withStalled_f (s : State) (a : Option Access) : (s.withStalled a).f = s.f := rfl
@[simp] theorem State.withStalled_opram (s : State) (a : Option Access) : (s.withStalled a).opram = s.opram := rfl
@[simp] theorem State.withStalled_unit (s : State) (a : Option Access) : (s.withStalled a).unit = s.unit := rfl
@[simp] theorem State.withStalled_done (s : State) (a : Option Access) : (s.withStalled a).done = s.done := rfl
@[simp] theorem State.withStalled_err (s : State) (a : Option Access) : (s.withStalled a).err = s.err := rfl
@[simp] theorem State.withStalled_errCause (s : State) (a : Option Access) : (s.withStalled a).errCause = s.errCause := rfl
@[simp] theorem State.withStalled_errCmd (s : State) (a : Option Access) : (s.withStalled a).errCmd = s.errCmd := rfl
@[simp] theorem State.withStalled_ieDone (s : State) (a : Option Access) : (s.withStalled a).ieDone = s.ieDone := rfl
@[simp] theorem State.withStalled_ieErr (s : State) (a : Option Access) : (s.withStalled a).ieErr = s.ieErr := rfl
@[simp] theorem State.withStalled_stalled (s : State) (a : Option Access) : (s.withStalled a).stalled = a := rfl
@[simp] theorem State.withStalled_inbox (s : State) (a : Option Access) : (s.withStalled a).inbox = s.inbox := rfl
@[simp] theorem State.withStalled_responses (s : State) (a : Option Access) : (s.withStalled a).responses = s.responses := rfl
@[simp] theorem State.withStalled_freeIndex (s : State) (a : Option Access) : (s.withStalled a).freeIndex = s.freeIndex := rfl

/-! ### `State.withDone` -/

@[simp] theorem State.withDone_f (s : State) (b : Bool) : (s.withDone b).f = s.f := rfl
@[simp] theorem State.withDone_opram (s : State) (b : Bool) : (s.withDone b).opram = s.opram := rfl
@[simp] theorem State.withDone_unit (s : State) (b : Bool) : (s.withDone b).unit = s.unit := rfl
@[simp] theorem State.withDone_done (s : State) (b : Bool) : (s.withDone b).done = b := rfl
@[simp] theorem State.withDone_err (s : State) (b : Bool) : (s.withDone b).err = s.err := rfl
@[simp] theorem State.withDone_errCause (s : State) (b : Bool) : (s.withDone b).errCause = s.errCause := rfl
@[simp] theorem State.withDone_errCmd (s : State) (b : Bool) : (s.withDone b).errCmd = s.errCmd := rfl
@[simp] theorem State.withDone_ieDone (s : State) (b : Bool) : (s.withDone b).ieDone = s.ieDone := rfl
@[simp] theorem State.withDone_ieErr (s : State) (b : Bool) : (s.withDone b).ieErr = s.ieErr := rfl
@[simp] theorem State.withDone_stalled (s : State) (b : Bool) : (s.withDone b).stalled = s.stalled := rfl
@[simp] theorem State.withDone_inbox (s : State) (b : Bool) : (s.withDone b).inbox = s.inbox := rfl
@[simp] theorem State.withDone_responses (s : State) (b : Bool) : (s.withDone b).responses = s.responses := rfl
@[simp] theorem State.withDone_freeIndex (s : State) (b : Bool) : (s.withDone b).freeIndex = s.freeIndex := rfl

/-! ### `State.withEnables` -/

@[simp] theorem State.withEnables_f (s : State) (d e : Bool) : (s.withEnables d e).f = s.f := rfl
@[simp] theorem State.withEnables_opram (s : State) (d e : Bool) : (s.withEnables d e).opram = s.opram := rfl
@[simp] theorem State.withEnables_unit (s : State) (d e : Bool) : (s.withEnables d e).unit = s.unit := rfl
@[simp] theorem State.withEnables_done (s : State) (d e : Bool) : (s.withEnables d e).done = s.done := rfl
@[simp] theorem State.withEnables_err (s : State) (d e : Bool) : (s.withEnables d e).err = s.err := rfl
@[simp] theorem State.withEnables_errCause (s : State) (d e : Bool) : (s.withEnables d e).errCause = s.errCause := rfl
@[simp] theorem State.withEnables_errCmd (s : State) (d e : Bool) : (s.withEnables d e).errCmd = s.errCmd := rfl
@[simp] theorem State.withEnables_ieDone (s : State) (d e : Bool) : (s.withEnables d e).ieDone = d := rfl
@[simp] theorem State.withEnables_ieErr (s : State) (d e : Bool) : (s.withEnables d e).ieErr = e := rfl
@[simp] theorem State.withEnables_stalled (s : State) (d e : Bool) : (s.withEnables d e).stalled = s.stalled := rfl
@[simp] theorem State.withEnables_inbox (s : State) (d e : Bool) : (s.withEnables d e).inbox = s.inbox := rfl
@[simp] theorem State.withEnables_responses (s : State) (d e : Bool) : (s.withEnables d e).responses = s.responses := rfl
@[simp] theorem State.withEnables_freeIndex (s : State) (d e : Bool) : (s.withEnables d e).freeIndex = s.freeIndex := rfl

/-! ### `State.withOpram` -/

@[simp] theorem State.withOpram_f (s : State) (m : Memory) : (s.withOpram m).f = s.f := rfl
@[simp] theorem State.withOpram_opram (s : State) (m : Memory) : (s.withOpram m).opram = m := rfl
@[simp] theorem State.withOpram_unit (s : State) (m : Memory) : (s.withOpram m).unit = s.unit := rfl
@[simp] theorem State.withOpram_done (s : State) (m : Memory) : (s.withOpram m).done = s.done := rfl
@[simp] theorem State.withOpram_err (s : State) (m : Memory) : (s.withOpram m).err = s.err := rfl
@[simp] theorem State.withOpram_errCause (s : State) (m : Memory) : (s.withOpram m).errCause = s.errCause := rfl
@[simp] theorem State.withOpram_errCmd (s : State) (m : Memory) : (s.withOpram m).errCmd = s.errCmd := rfl
@[simp] theorem State.withOpram_ieDone (s : State) (m : Memory) : (s.withOpram m).ieDone = s.ieDone := rfl
@[simp] theorem State.withOpram_ieErr (s : State) (m : Memory) : (s.withOpram m).ieErr = s.ieErr := rfl
@[simp] theorem State.withOpram_stalled (s : State) (m : Memory) : (s.withOpram m).stalled = s.stalled := rfl
@[simp] theorem State.withOpram_inbox (s : State) (m : Memory) : (s.withOpram m).inbox = s.inbox := rfl
@[simp] theorem State.withOpram_responses (s : State) (m : Memory) : (s.withOpram m).responses = s.responses := rfl
@[simp] theorem State.withOpram_freeIndex (s : State) (m : Memory) : (s.withOpram m).freeIndex = s.freeIndex := rfl

/-! ### `State.withFreeIndex` -/

@[simp] theorem State.withFreeIndex_f (s : State) (n : Nat) : (s.withFreeIndex n).f = s.f := rfl
@[simp] theorem State.withFreeIndex_opram (s : State) (n : Nat) : (s.withFreeIndex n).opram = s.opram := rfl
@[simp] theorem State.withFreeIndex_unit (s : State) (n : Nat) : (s.withFreeIndex n).unit = s.unit := rfl
@[simp] theorem State.withFreeIndex_done (s : State) (n : Nat) : (s.withFreeIndex n).done = s.done := rfl
@[simp] theorem State.withFreeIndex_err (s : State) (n : Nat) : (s.withFreeIndex n).err = s.err := rfl
@[simp] theorem State.withFreeIndex_errCause (s : State) (n : Nat) : (s.withFreeIndex n).errCause = s.errCause := rfl
@[simp] theorem State.withFreeIndex_errCmd (s : State) (n : Nat) : (s.withFreeIndex n).errCmd = s.errCmd := rfl
@[simp] theorem State.withFreeIndex_ieDone (s : State) (n : Nat) : (s.withFreeIndex n).ieDone = s.ieDone := rfl
@[simp] theorem State.withFreeIndex_ieErr (s : State) (n : Nat) : (s.withFreeIndex n).ieErr = s.ieErr := rfl
@[simp] theorem State.withFreeIndex_stalled (s : State) (n : Nat) : (s.withFreeIndex n).stalled = s.stalled := rfl
@[simp] theorem State.withFreeIndex_inbox (s : State) (n : Nat) : (s.withFreeIndex n).inbox = s.inbox := rfl
@[simp] theorem State.withFreeIndex_responses (s : State) (n : Nat) : (s.withFreeIndex n).responses = s.responses := rfl
@[simp] theorem State.withFreeIndex_freeIndex (s : State) (n : Nat) : (s.withFreeIndex n).freeIndex = n := rfl

/-! ### `State.finish` -/

@[simp] theorem State.finish_f (s : State) : s.finish.f = s.f := rfl
@[simp] theorem State.finish_opram (s : State) : s.finish.opram = s.opram := rfl
@[simp] theorem State.finish_unit (s : State) : s.finish.unit = .idle := rfl
@[simp] theorem State.finish_done (s : State) : s.finish.done = true := rfl
@[simp] theorem State.finish_err (s : State) : s.finish.err = s.err := rfl
@[simp] theorem State.finish_errCause (s : State) : s.finish.errCause = s.errCause := rfl
@[simp] theorem State.finish_errCmd (s : State) : s.finish.errCmd = s.errCmd := rfl
@[simp] theorem State.finish_ieDone (s : State) : s.finish.ieDone = s.ieDone := rfl
@[simp] theorem State.finish_ieErr (s : State) : s.finish.ieErr = s.ieErr := rfl
@[simp] theorem State.finish_stalled (s : State) : s.finish.stalled = s.stalled := rfl
@[simp] theorem State.finish_inbox (s : State) : s.finish.inbox = s.inbox := rfl
@[simp] theorem State.finish_responses (s : State) : s.finish.responses = s.responses := rfl
@[simp] theorem State.finish_freeIndex (s : State) : s.finish.freeIndex = s.freeIndex := rfl

/-! ### `State.respond` -/

@[simp] theorem State.respond_f (s : State) (r : Response) : (s.respond r).f = s.f := rfl
@[simp] theorem State.respond_opram (s : State) (r : Response) : (s.respond r).opram = s.opram := rfl
@[simp] theorem State.respond_unit (s : State) (r : Response) : (s.respond r).unit = s.unit := rfl
@[simp] theorem State.respond_done (s : State) (r : Response) : (s.respond r).done = s.done := rfl
@[simp] theorem State.respond_err (s : State) (r : Response) : (s.respond r).err = s.err := rfl
@[simp] theorem State.respond_errCause (s : State) (r : Response) : (s.respond r).errCause = s.errCause := rfl
@[simp] theorem State.respond_errCmd (s : State) (r : Response) : (s.respond r).errCmd = s.errCmd := rfl
@[simp] theorem State.respond_ieDone (s : State) (r : Response) : (s.respond r).ieDone = s.ieDone := rfl
@[simp] theorem State.respond_ieErr (s : State) (r : Response) : (s.respond r).ieErr = s.ieErr := rfl
@[simp] theorem State.respond_stalled (s : State) (r : Response) : (s.respond r).stalled = s.stalled := rfl
@[simp] theorem State.respond_inbox (s : State) (r : Response) : (s.respond r).inbox = s.inbox := rfl
@[simp] theorem State.respond_responses (s : State) (r : Response) : (s.respond r).responses = r :: s.responses := rfl
@[simp] theorem State.respond_freeIndex (s : State) (r : Response) : (s.respond r).freeIndex = s.freeIndex := rfl

/-! ### `State.resetBlock` -/

@[simp] theorem State.resetBlock_f (s : State) : s.resetBlock.f = State.reset.f := rfl
@[simp] theorem State.resetBlock_opram (s : State) : s.resetBlock.opram = [] := rfl
@[simp] theorem State.resetBlock_unit (s : State) : s.resetBlock.unit = .idle := rfl
@[simp] theorem State.resetBlock_done (s : State) : s.resetBlock.done = false := rfl
@[simp] theorem State.resetBlock_err (s : State) : s.resetBlock.err = false := rfl
@[simp] theorem State.resetBlock_errCause (s : State) : s.resetBlock.errCause = 0 := rfl
@[simp] theorem State.resetBlock_errCmd (s : State) : s.resetBlock.errCmd = 0 := rfl
@[simp] theorem State.resetBlock_ieDone (s : State) : s.resetBlock.ieDone = false := rfl
@[simp] theorem State.resetBlock_ieErr (s : State) : s.resetBlock.ieErr = false := rfl
@[simp] theorem State.resetBlock_stalled (s : State) : s.resetBlock.stalled = s.stalled := rfl
@[simp] theorem State.resetBlock_inbox (s : State) : s.resetBlock.inbox = s.inbox := rfl
@[simp] theorem State.resetBlock_responses (s : State) : s.resetBlock.responses = s.responses := rfl
@[simp] theorem State.resetBlock_freeIndex (s : State) : s.resetBlock.freeIndex = s.freeIndex := rfl

/-! ### `State.holdCommand` -/

@[simp] theorem State.holdCommand_f (s : State) (w : Word) : (s.holdCommand w).f = s.f := rfl
@[simp] theorem State.holdCommand_opram (s : State) (w : Word) : (s.holdCommand w).opram = s.opram := rfl
@[simp] theorem State.holdCommand_unit (s : State) (w : Word) : (s.holdCommand w).unit = .busy w 1 := rfl
@[simp] theorem State.holdCommand_done (s : State) (w : Word) : (s.holdCommand w).done = s.done := rfl
@[simp] theorem State.holdCommand_err (s : State) (w : Word) : (s.holdCommand w).err = s.err := rfl
@[simp] theorem State.holdCommand_errCause (s : State) (w : Word) : (s.holdCommand w).errCause = s.errCause := rfl
@[simp] theorem State.holdCommand_errCmd (s : State) (w : Word) : (s.holdCommand w).errCmd = s.errCmd := rfl
@[simp] theorem State.holdCommand_ieDone (s : State) (w : Word) : (s.holdCommand w).ieDone = s.ieDone := rfl
@[simp] theorem State.holdCommand_ieErr (s : State) (w : Word) : (s.holdCommand w).ieErr = s.ieErr := rfl
@[simp] theorem State.holdCommand_stalled (s : State) (w : Word) : (s.holdCommand w).stalled = s.stalled := rfl
@[simp] theorem State.holdCommand_inbox (s : State) (w : Word) : (s.holdCommand w).inbox = .tick :: s.inbox := rfl
@[simp] theorem State.holdCommand_responses (s : State) (w : Word) : (s.holdCommand w).responses = s.responses := rfl
@[simp] theorem State.holdCommand_freeIndex (s : State) (w : Word) : (s.holdCommand w).freeIndex = s.freeIndex := rfl

/-! ### `State.writeStatus` and `State.writeCtrl` -/

@[simp] theorem State.writeStatus_f (s : State) (w : Word) : (s.writeStatus w).f = s.f := by
  unfold State.writeStatus; cases w[1] <;> cases w[2] <;> simp
@[simp] theorem State.writeStatus_opram (s : State) (w : Word) : (s.writeStatus w).opram = s.opram := by
  unfold State.writeStatus; cases w[1] <;> cases w[2] <;> simp
@[simp] theorem State.writeStatus_unit (s : State) (w : Word) : (s.writeStatus w).unit = s.unit := by
  unfold State.writeStatus; cases w[1] <;> cases w[2] <;> simp
@[simp] theorem State.writeStatus_done (s : State) (w : Word) : (s.writeStatus w).done = (s.done && !w[1]) := by
  unfold State.writeStatus; cases w[1] <;> cases w[2] <;> simp
@[simp] theorem State.writeStatus_err (s : State) (w : Word) : (s.writeStatus w).err = (s.err && !w[2]) := by
  unfold State.writeStatus; cases w[1] <;> cases w[2] <;> simp
@[simp] theorem State.writeStatus_errCause (s : State) (w : Word) : (s.writeStatus w).errCause = (if w[2] then 0 else s.errCause) := by
  unfold State.writeStatus; cases w[1] <;> cases w[2] <;> simp
@[simp] theorem State.writeStatus_errCmd (s : State) (w : Word) : (s.writeStatus w).errCmd = (if w[2] then 0 else s.errCmd) := by
  unfold State.writeStatus; cases w[1] <;> cases w[2] <;> simp
@[simp] theorem State.writeStatus_ieDone (s : State) (w : Word) : (s.writeStatus w).ieDone = s.ieDone := by
  unfold State.writeStatus; cases w[1] <;> cases w[2] <;> simp
@[simp] theorem State.writeStatus_ieErr (s : State) (w : Word) : (s.writeStatus w).ieErr = s.ieErr := by
  unfold State.writeStatus; cases w[1] <;> cases w[2] <;> simp
@[simp] theorem State.writeStatus_stalled (s : State) (w : Word) : (s.writeStatus w).stalled = s.stalled := by
  unfold State.writeStatus; cases w[1] <;> cases w[2] <;> simp
@[simp] theorem State.writeStatus_inbox (s : State) (w : Word) : (s.writeStatus w).inbox = s.inbox := by
  unfold State.writeStatus; cases w[1] <;> cases w[2] <;> simp
@[simp] theorem State.writeStatus_responses (s : State) (w : Word) : (s.writeStatus w).responses = s.responses := by
  unfold State.writeStatus; cases w[1] <;> cases w[2] <;> simp
@[simp] theorem State.writeStatus_freeIndex (s : State) (w : Word) : (s.writeStatus w).freeIndex = s.freeIndex := by
  unfold State.writeStatus; cases w[1] <;> cases w[2] <;> simp

theorem State.writeCtrl_srst (s : State) (w : Word) (h : w[2] = true) : s.writeCtrl w = s.resetBlock := by
  rw [State.writeCtrl, if_pos h]

theorem State.writeCtrl_enables (s : State) (w : Word) (h : w[2] = false) :
    s.writeCtrl w = s.withEnables w[0] w[1] := by
  rw [State.writeCtrl, h]; rfl

/-! ### Field registers -/

/-- The register written reads as the value written. -/
@[simp] theorem State.readF_writeF_same (s : State) (i : Reg) (v : FieldValue) : (s.writeF i v).readF i = v := by
  simp [State.readF, State.writeF, Vector.get_eq_getElem]

/-- Every other register reads as before: there is no alias (R20). -/
theorem State.readF_writeF_other (s : State) {i j : Reg} (v : FieldValue) (h : j ≠ i) :
    (s.writeF i v).readF j = s.readF j := by
  have h' : i.val ≠ j.val := fun e => h (Fin.ext e.symm)
  simp [State.readF, State.writeF, Vector.get_eq_getElem, Vector.getElem_set_ne, h']

/-- A read after a write, in one equation. -/
theorem State.readF_writeF (s : State) (i j : Reg) (v : FieldValue) :
    (s.writeF i v).readF j = if j = i then v else s.readF j := by
  by_cases h : j = i
  · subst h; simp
  · simp [h, State.readF_writeF_other]

/-- Equal register files read equally, and only they do. -/
theorem readF_ext {s t : State} (h : ∀ i, s.readF i = t.readF i) : s.f = t.f := by
  apply Vector.ext
  intro i hi
  simpa [State.readF, Vector.get_eq_getElem] using h ⟨i, hi⟩

@[simp] theorem readF_reset (i : Reg) : State.reset.readF i = reduce 0 := by
  revert i; decide +kernel

@[simp] theorem State.readF_writeSlot (s : State) (k : Slot) (v : Nat) (j : Reg) : (s.writeSlot k v).readF j = s.readF j := by
  unfold State.readF; simp
@[simp] theorem State.readF_recordError (s : State) (e : CommandError) (w : Word) (j : Reg) : (s.recordError e w).readF j = s.readF j := by
  unfold State.readF; simp
@[simp] theorem State.readF_clearError (s : State) (j : Reg) : s.clearError.readF j = s.readF j := by
  unfold State.readF; simp
@[simp] theorem State.readF_withInbox (s : State) (moves : List HostMove) (j : Reg) : (s.withInbox moves).readF j = s.readF j := by
  unfold State.readF; simp
@[simp] theorem State.readF_withUnit (s : State) (u : UnitState) (j : Reg) : (s.withUnit u).readF j = s.readF j := by
  unfold State.readF; simp
@[simp] theorem State.readF_withStalled (s : State) (a : Option Access) (j : Reg) : (s.withStalled a).readF j = s.readF j := by
  unfold State.readF; simp
@[simp] theorem State.readF_withDone (s : State) (b : Bool) (j : Reg) : (s.withDone b).readF j = s.readF j := by
  unfold State.readF; simp
@[simp] theorem State.readF_withEnables (s : State) (d e : Bool) (j : Reg) : (s.withEnables d e).readF j = s.readF j := by
  unfold State.readF; simp
@[simp] theorem State.readF_withOpram (s : State) (m : Memory) (j : Reg) : (s.withOpram m).readF j = s.readF j := by
  unfold State.readF; simp
@[simp] theorem State.readF_withFreeIndex (s : State) (n : Nat) (j : Reg) : (s.withFreeIndex n).readF j = s.readF j := by
  unfold State.readF; simp
@[simp] theorem State.readF_finish (s : State) (j : Reg) : s.finish.readF j = s.readF j := by
  unfold State.readF; simp
@[simp] theorem State.readF_respond (s : State) (r : Response) (j : Reg) : (s.respond r).readF j = s.readF j := by
  unfold State.readF; simp
@[simp] theorem State.readF_holdCommand (s : State) (w : Word) (j : Reg) : (s.holdCommand w).readF j = s.readF j := by
  unfold State.readF; simp

/-! ### The unit's mode -/

@[simp] theorem busy_of_idle {s : State} (h : s.unit = .idle) : s.busy = false := by simp [State.busy, h, UnitState.isBusy]

@[simp] theorem busy_of_busy {s : State} {w : Word} {n : Nat} (h : s.unit = .busy w n) : s.busy = true := by
  simp [State.busy, h, UnitState.isBusy]

theorem busy_false_iff {s : State} : s.busy = false ↔ s.unit = .idle := by
  unfold State.busy; cases s.unit <;> simp [UnitState.isBusy]

theorem busy_true_iff {s : State} : s.busy = true ↔ ∃ w n, s.unit = .busy w n := by
  unfold State.busy; cases s.unit <;> simp [UnitState.isBusy]

end Sys2Proof.Machine
end

