-- ==== Sys2Proof/Laws/Exec.lean ====
section
/-! SUPPORT. Each meaning as one equation, and what any command can do to the state, said once. -/

namespace Sys2Proof.Machine

open Sys2Proof

theorem exec_fadd (d a b : Reg) (s : State) :
    exec (.fadd d a b) s = .next (s.writeF d (fieldAdd (s.readF a) (s.readF b))) := rfl

theorem exec_fsub (d a b : Reg) (s : State) :
    exec (.fsub d a b) s = .next (s.writeF d (fieldSub (s.readF a) (s.readF b))) := rfl

theorem exec_fmul (d a b : Reg) (s : State) :
    exec (.fmul d a b) s = .next (s.writeF d (fieldMul (s.readF a) (s.readF b))) := rfl

theorem exec_fsqr (d a : Reg) (s : State) : exec (.fsqr d a) s = .next (s.writeF d (fieldSqr (s.readF a))) := rfl

theorem exec_fneg (d a : Reg) (s : State) : exec (.fneg d a) s = .next (s.writeF d (fieldNeg (s.readF a))) := rfl

theorem exec_finv (d a : Reg) (s : State) : exec (.finv d a) s = .next (s.writeF d (fieldInv (s.readF a))) := rfl

theorem exec_fcswap (a b : Reg) (c : Bool) (s : State) :
    exec (.fcswap a b c) s = .next (if c then (s.writeF a (s.readF b)).writeF b (s.readF a) else s) := rfl

theorem exec_fld (d : Reg) (k : Slot) (s : State) :
    exec (.fld d k) s = .next (s.writeF d (fieldOfBytes (s.readSlot k))) := rfl

theorem exec_fst (k : Slot) (a : Reg) (s : State) : exec (.fst k a) s = .next (s.writeSlot k (s.readF a).val) := rfl

theorem SameControl.refl (s : State) : SameControl s s := by constructor <;> rfl

theorem SameControl.trans {s t u : State} (h : SameControl s t) (h' : SameControl t u) : SameControl s u := by
  constructor <;> simp [h.unit, h.done, h.err, h.errCause, h.errCmd, h.ieDone, h.ieErr, h.stalled, h.inbox, h.responses,
    h.freeIndex, h'.unit, h'.done, h'.err, h'.errCause, h'.errCmd, h'.ieDone, h'.ieErr, h'.stalled, h'.inbox, h'.responses,
    h'.freeIndex]

theorem sameControl_writeF (s : State) (i : Reg) (v : FieldValue) : SameControl s (s.writeF i v) := by
  constructor <;> simp

theorem sameControl_writeSlot (s : State) (k : Slot) (v : Nat) : SameControl s (s.writeSlot k v) := by
  constructor <;> simp

/-- What any command can do: Exec answers a next state (R101), keeps OPRAM canonical, and leaves the control state. -/
theorem exec_spec (i : Instr) (s : State) :
    ∃ t, exec i s = .next t ∧ SameControl s t ∧ (s.opram.wf = true → t.opram.wf = true) := by
  cases i with
  | fadd d a b => exact ⟨_, exec_fadd d a b s, sameControl_writeF _ _ _, by simp⟩
  | fsub d a b => exact ⟨_, exec_fsub d a b s, sameControl_writeF _ _ _, by simp⟩
  | fmul d a b => exact ⟨_, exec_fmul d a b s, sameControl_writeF _ _ _, by simp⟩
  | fsqr d a => exact ⟨_, exec_fsqr d a s, sameControl_writeF _ _ _, by simp⟩
  | fneg d a => exact ⟨_, exec_fneg d a s, sameControl_writeF _ _ _, by simp⟩
  | finv d a => exact ⟨_, exec_finv d a s, sameControl_writeF _ _ _, by simp⟩
  | fcswap a b c =>
    refine ⟨_, exec_fcswap a b c s, ?_, ?_⟩
    · split
      · exact (sameControl_writeF _ _ _).trans (sameControl_writeF _ _ _)
      · exact SameControl.refl s
    · intro h; split <;> simpa using h
  | fld d k => exact ⟨_, exec_fld d k s, sameControl_writeF _ _ _, by simp⟩
  | fst k a =>
    refine ⟨_, exec_fst k a s, sameControl_writeSlot _ _ _, fun h => ?_⟩
    rw [State.writeSlot_opram]
    exact Memory.write_wf h (slotAddress_in_opram k) _

end Sys2Proof.Machine
end

