-- ==== Sys2Proof/Laws/PerInstr.lean ====
section
/-! SUPPORT. Two facts of every command, one lemma per constructor: its word is of its row of the opcode map
(spec/30_encoding.md R83, R84), and its text assembles to its word (R89). -/

namespace Sys2Proof.Laws

open Sys2Proof Sys2Proof.Machine

/-- The command's row of the opcode map (R84). -/
def rowFor : Instr → OpcodeRow
  | .fadd _ _ _ => rowFadd
  | .fsub _ _ _ => rowFsub
  | .fmul _ _ _ => rowFmul
  | .fsqr _ _ => rowFsqr
  | .fneg _ _ => rowFneg
  | .finv _ _ => rowFinv
  | .fcswap _ _ _ => rowFcswap
  | .fld _ _ => rowFld
  | .fst _ _ => rowFst

/-- The command's word is of the command's row. -/
def MatchesRow.Statement (i : Instr) : Prop := (rowFor i).selects (encode i) = true

/-- The command's text assembles to the command's word. -/
def ParsesBack.Statement (i : Instr) : Prop := assembleLine (instrText i) = some [encode i]

theorem bv_eq_of_toNat {n : Nat} {x : BitVec n} {m : Nat} (hm : m < 2 ^ n) (h : x.toNat = m) : x = BitVec.ofNat n m := by
  apply BitVec.eq_of_toNat_eq
  rw [h, BitVec.toNat_ofNat, Nat.mod_eq_of_lt hm]

theorem MatchesRow.fadd (d a b : Reg) : MatchesRow.Statement (.fadd d a b) := by
  obtain ⟨ho, -, -, -, hc, hr⟩ := buildWord_fields (op := 0x01) (by decide) d.isLt a.isLt b.isLt (by decide : 0 < 2)
  exact (selects_fadd _).2 ⟨bv_eq_of_toNat (by decide) ho, hc, hr⟩

theorem MatchesRow.fsub (d a b : Reg) : MatchesRow.Statement (.fsub d a b) := by
  obtain ⟨ho, -, -, -, hc, hr⟩ := buildWord_fields (op := 0x02) (by decide) d.isLt a.isLt b.isLt (by decide : 0 < 2)
  exact (selects_fsub _).2 ⟨bv_eq_of_toNat (by decide) ho, hc, hr⟩

theorem MatchesRow.fmul (d a b : Reg) : MatchesRow.Statement (.fmul d a b) := by
  obtain ⟨ho, -, -, -, hc, hr⟩ := buildWord_fields (op := 0x03) (by decide) d.isLt a.isLt b.isLt (by decide : 0 < 2)
  exact (selects_fmul _).2 ⟨bv_eq_of_toNat (by decide) ho, hc, hr⟩

theorem MatchesRow.fsqr (d a : Reg) : MatchesRow.Statement (.fsqr d a) := by
  obtain ⟨ho, -, -, hb, hc, hr⟩ := buildWord_fields (op := 0x04) (by decide) d.isLt a.isLt (by decide : 0 < 16) (by decide : 0 < 2)
  exact (selects_fsqr _).2 ⟨bv_eq_of_toNat (by decide) ho, hb, hc, hr⟩

theorem MatchesRow.fneg (d a : Reg) : MatchesRow.Statement (.fneg d a) := by
  obtain ⟨ho, -, -, hb, hc, hr⟩ := buildWord_fields (op := 0x05) (by decide) d.isLt a.isLt (by decide : 0 < 16) (by decide : 0 < 2)
  exact (selects_fneg _).2 ⟨bv_eq_of_toNat (by decide) ho, hb, hc, hr⟩

theorem MatchesRow.finv (d a : Reg) : MatchesRow.Statement (.finv d a) := by
  obtain ⟨ho, -, -, hb, hc, hr⟩ := buildWord_fields (op := 0x06) (by decide) d.isLt a.isLt (by decide : 0 < 16) (by decide : 0 < 2)
  exact (selects_finv _).2 ⟨bv_eq_of_toNat (by decide) ho, hb, hc, hr⟩

theorem MatchesRow.fcswap (a b : Reg) (c : Bool) : MatchesRow.Statement (.fcswap a b c) := by
  obtain ⟨ho, hd, -, -, -, hr⟩ := buildWord_fields (op := 0x07) (by decide) (by decide : 0 < 16) a.isLt b.isLt c.toNat_lt
  exact (selects_fcswap _).2 ⟨bv_eq_of_toNat (by decide) ho, hd, hr⟩

theorem MatchesRow.fld (d : Reg) (s : Slot) : MatchesRow.Statement (.fld d s) := by
  obtain ⟨ho, -, ha, -, hc, hr⟩ := buildWord_fields (op := 0x08) (by decide) d.isLt (by decide : 0 < 16) s.isLt (by decide : 0 < 2)
  exact (selects_fld _).2 ⟨bv_eq_of_toNat (by decide) ho, ha, hc, hr⟩

theorem MatchesRow.fst (s : Slot) (a : Reg) : MatchesRow.Statement (.fst s a) := by
  obtain ⟨ho, hd, -, -, hc, hr⟩ := buildWord_fields (op := 0x09) (by decide) (by decide : 0 < 16) a.isLt s.isLt (by decide : 0 < 2)
  exact (selects_fst _).2 ⟨bv_eq_of_toNat (by decide) ho, hd, hc, hr⟩

theorem ParsesBack.fadd (d a b : Reg) : ParsesBack.Statement (.fadd d a b) := by
  obtain ⟨t1, n1, p1, q1⟩ := regText_spec d
  obtain ⟨t2, n2, p2, q2⟩ := regText_spec a
  obtain ⟨t3, n3, p3, q3⟩ := regText_spec b
  have hs : parseLine (instrText (.fadd d a b)) = some (.fadd d.val a.val b.val) :=
    (parseLine_three (by simp) t1 t2 t3 n3 p1 p2 p3).trans (by simp [stmtOf])
  simp [ParsesBack.Statement, assembleLine, hs, expandStmt, q1, q2, q3]

theorem ParsesBack.fsub (d a b : Reg) : ParsesBack.Statement (.fsub d a b) := by
  obtain ⟨t1, n1, p1, q1⟩ := regText_spec d
  obtain ⟨t2, n2, p2, q2⟩ := regText_spec a
  obtain ⟨t3, n3, p3, q3⟩ := regText_spec b
  have hs : parseLine (instrText (.fsub d a b)) = some (.fsub d.val a.val b.val) :=
    (parseLine_three (by simp) t1 t2 t3 n3 p1 p2 p3).trans (by simp [stmtOf])
  simp [ParsesBack.Statement, assembleLine, hs, expandStmt, q1, q2, q3]

theorem ParsesBack.fmul (d a b : Reg) : ParsesBack.Statement (.fmul d a b) := by
  obtain ⟨t1, n1, p1, q1⟩ := regText_spec d
  obtain ⟨t2, n2, p2, q2⟩ := regText_spec a
  obtain ⟨t3, n3, p3, q3⟩ := regText_spec b
  have hs : parseLine (instrText (.fmul d a b)) = some (.fmul d.val a.val b.val) :=
    (parseLine_three (by simp) t1 t2 t3 n3 p1 p2 p3).trans (by simp [stmtOf])
  simp [ParsesBack.Statement, assembleLine, hs, expandStmt, q1, q2, q3]

theorem ParsesBack.fsqr (d a : Reg) : ParsesBack.Statement (.fsqr d a) := by
  obtain ⟨t1, n1, p1, q1⟩ := regText_spec d
  obtain ⟨t2, n2, p2, q2⟩ := regText_spec a
  have hs : parseLine (instrText (.fsqr d a)) = some (.fsqr d.val a.val) :=
    (parseLine_two (by simp) t1 t2 n2 p1 p2).trans (by simp [stmtOf])
  simp [ParsesBack.Statement, assembleLine, hs, expandStmt, q1, q2]

theorem ParsesBack.fneg (d a : Reg) : ParsesBack.Statement (.fneg d a) := by
  obtain ⟨t1, n1, p1, q1⟩ := regText_spec d
  obtain ⟨t2, n2, p2, q2⟩ := regText_spec a
  have hs : parseLine (instrText (.fneg d a)) = some (.fneg d.val a.val) :=
    (parseLine_two (by simp) t1 t2 n2 p1 p2).trans (by simp [stmtOf])
  simp [ParsesBack.Statement, assembleLine, hs, expandStmt, q1, q2]

theorem ParsesBack.finv (d a : Reg) : ParsesBack.Statement (.finv d a) := by
  obtain ⟨t1, n1, p1, q1⟩ := regText_spec d
  obtain ⟨t2, n2, p2, q2⟩ := regText_spec a
  have hs : parseLine (instrText (.finv d a)) = some (.finv d.val a.val) :=
    (parseLine_two (by simp) t1 t2 n2 p1 p2).trans (by simp [stmtOf])
  simp [ParsesBack.Statement, assembleLine, hs, expandStmt, q1, q2]

theorem ParsesBack.fcswap (a b : Reg) (c : Bool) : ParsesBack.Statement (.fcswap a b c) := by
  obtain ⟨t1, n1, p1, q1⟩ := regText_spec a
  obtain ⟨t2, n2, p2, q2⟩ := regText_spec b
  obtain ⟨t3, n3, p3, q3⟩ := condText_spec c
  have hs : parseLine (instrText (.fcswap a b c)) = some (.fcswap a.val b.val c.toNat) :=
    (parseLine_three (by simp) t1 t2 t3 n3 p1 p2 p3).trans (by simp [stmtOf])
  simp [ParsesBack.Statement, assembleLine, hs, expandStmt, q1, q2, q3]

theorem ParsesBack.fld (d : Reg) (s : Slot) : ParsesBack.Statement (.fld d s) := by
  obtain ⟨t1, n1, p1, q1⟩ := regText_spec d
  obtain ⟨t2, n2, p2, q2⟩ := slotText_spec s
  have hs : parseLine (instrText (.fld d s)) = some (.fld d.val s.val) :=
    (parseLine_two (by simp) t1 t2 n2 p1 p2).trans (by simp [stmtOf])
  simp [ParsesBack.Statement, assembleLine, hs, expandStmt, q1, q2]

theorem ParsesBack.fst (s : Slot) (a : Reg) : ParsesBack.Statement (.fst s a) := by
  obtain ⟨t1, n1, p1, q1⟩ := slotText_spec s
  obtain ⟨t2, n2, p2, q2⟩ := regText_spec a
  have hs : parseLine (instrText (.fst s a)) = some (.fst s.val a.val) :=
    (parseLine_two (by simp) t1 t2 n2 p1 p2).trans (by simp [stmtOf])
  simp [ParsesBack.Statement, assembleLine, hs, expandStmt, q1, q2]

end Sys2Proof.Laws
end

