-- ==== Sys2Proof/Laws/Step.lean ====
section
/-! SUPPORT. What one step can do, said once: if step answers a next state, one of the cases of `StepCase` holds. -/

namespace Sys2Proof.Machine

open Sys2Proof

/-- A completion of the command word `w` from `s` (R27): Exec, then IDLE and DONE. -/
inductive Completes (w : Word) (s t : State) : Prop where
  | intro (i : Instr) (u : State) (hd : decode w = .ok i) (he : exec i s = .next u) (ht : t = u.finish)

theorem complete_next {w : Word} {s t : State} : s.complete w = .next t ↔ Completes w s t := by
  constructor
  · intro h
    unfold State.complete at h
    split at h
    · cases h
    · rename_i i hd
      obtain ⟨u, hu, -⟩ := exec_spec i s
      rw [hu] at h
      exact ⟨i, u, hd, hu, by simpa using h.symm⟩
  · rintro ⟨i, u, hd, he, rfl⟩
    simp [State.complete, hd, he]

/-- A word that decodes completes (R27: Exec never fails). -/
theorem complete_of_decode {w : Word} {i : Instr} (hd : decode w = .ok i) (s : State) : ∃ t, s.complete w = .next t := by
  obtain ⟨u, hu, -⟩ := exec_spec i s
  exact ⟨u.finish, complete_next.2 ⟨i, u, hd, hu, rfl⟩⟩

/-- What completion leaves, apart from the command's own effect. -/
theorem Completes.control {w : Word} {s t : State} (h : Completes w s t) :
    t.unit = .idle ∧ t.done = true ∧ t.err = s.err ∧ t.errCause = s.errCause ∧ t.errCmd = s.errCmd ∧
      t.ieDone = s.ieDone ∧ t.ieErr = s.ieErr ∧ t.stalled = s.stalled ∧ t.inbox = s.inbox ∧
      t.responses = s.responses ∧ t.freeIndex = s.freeIndex ∧ (s.opram.wf = true → t.opram.wf = true) := by
  obtain ⟨i, u, hd, he, rfl⟩ := h
  obtain ⟨t', he', hc, hw⟩ := exec_spec i s
  rw [he] at he'
  cases he'
  exact ⟨rfl, rfl, hc.err, hc.errCause, hc.errCmd, hc.ieDone, hc.ieErr, hc.stalled, hc.inbox, hc.responses,
    hc.freeIndex, hw⟩

/-- The ways one step goes from `s` to `t`. -/
inductive StepCase (s t : State) : Prop where
  /-- the held access completes (R57) -/
  | held (a : Access) (hb : s.unit = .idle) (hs : s.stalled = some a) (ht : t = s.releaseHeld a)
  /-- nothing arrives and the unit is IDLE (R203) -/
  | waits (hs : s.stalled = none) (hi : s.inbox = []) (hb : s.unit = .idle) (ht : t = s)
  /-- nothing can arrive before the command completes -/
  | completes (w : Word) (n : Nat) (hb : s.unit = .busy w n)
      (hi : s.inbox = [] ∨ ∃ b a rest, s.stalled = some b ∧ s.inbox = .access a :: rest) (ht : Completes w s t)
  /-- the last cycle of the command -/
  | lastTick (w : Word) (n : Nat) (rest : List HostMove) (hb : s.unit = .busy w n) (hn : n ≤ 1)
      (hi : s.inbox = .tick :: rest) (ht : Completes w (s.withInbox rest) t)
  /-- a cycle of a command with more to go -/
  | busyTick (w : Word) (n : Nat) (rest : List HostMove) (hb : s.unit = .busy w n) (hn : 1 < n)
      (hi : s.inbox = .tick :: rest) (ht : t = (s.withInbox rest).withUnit (.busy w (n - 1)))
  /-- a cycle with the unit IDLE, or a wait that is over at once -/
  | idleTime (m : HostMove) (rest : List HostMove) (hm : m = .tick ∨ m = .awaitIdle) (hs : s.stalled = none)
      (hb : s.unit = .idle) (hi : s.inbox = m :: rest) (ht : t = s.withInbox rest)
  /-- the host waits until the command completes -/
  | awaited (w : Word) (n : Nat) (rest : List HostMove) (hb : s.unit = .busy w n) (hi : s.inbox = .awaitIdle :: rest)
      (ht : Completes w (s.withInbox rest) t)
  /-- the reset input (R200) -/
  | reset (during : Option Access) (rest : List HostMove) (hh : s.heldAccess = none) (hi : s.inbox = .rst during :: rest)
      (ht : t = (s.withInbox rest).hardReset during)
  /-- an access is held (R57) -/
  | stalls (a : Access) (rest : List HostMove) (hs : s.stalled = none) (hi : s.inbox = .access a :: rest)
      (hm : s.mustStall a = true) (ht : t = (s.withInbox rest).withStalled (some a))
  /-- an access is performed -/
  | performs (a : Access) (rest : List HostMove) (hs : s.stalled = none) (hi : s.inbox = .access a :: rest)
      (hm : s.mustStall a = false) (ht : t = (s.withInbox rest).perform a)

theorem heldAccess_idle {s : State} (h : s.unit = .idle) : s.heldAccess = s.stalled := by
  simp [State.heldAccess, busy_of_idle h]

theorem heldAccess_busy {s : State} {w : Word} {n : Nat} (h : s.unit = .busy w n) : s.heldAccess = none := by
  simp [State.heldAccess, busy_of_busy h]

/-- What a step can do. -/
theorem step_cases {s t : State} (h : step s = .next t) : StepCase s t := by
  unfold step at h
  cases hu : s.unit with
  | idle =>
    rw [heldAccess_idle hu] at h
    cases hs : s.stalled with
    | some a => rw [hs] at h; exact .held a hu hs (by simpa using h.symm)
    | none =>
      rw [hs] at h
      cases hi : s.inbox with
      | nil => rw [hi] at h; exact .waits hs hi hu (by simpa [State.letComplete, hu] using h.symm)
      | cons m rest =>
        rw [hi] at h
        cases m with
        | tick => exact .idleTime .tick rest (.inl rfl) hs hu hi (by simpa [State.takeMove, State.clockTick, hu] using h.symm)
        | awaitIdle =>
          exact .idleTime .awaitIdle rest (.inr rfl) hs hu hi (by simpa [State.takeMove, State.letComplete, hu] using h.symm)
        | rst d => exact .reset d rest (by rw [heldAccess_idle hu, hs]) hi (by simpa [State.takeMove] using h.symm)
        | access a =>
          simp only [State.takeMove, hs, Option.isSome_none, Bool.false_eq_true, if_false] at h
          have hm : s.mustStall a = false := by simp [State.mustStall, busy_of_idle hu]
          have hm' : (s.withInbox rest).mustStall a = false := hm
          exact .performs a rest hs hi hm (by injection h with h; rw [← h, State.arrive, hm']; rfl)
  | busy w n =>
    rw [heldAccess_busy hu] at h
    cases hi : s.inbox with
    | nil =>
      rw [hi] at h
      exact .completes w n hu (.inl hi) (complete_next.1 (by simpa [State.letComplete, hu] using h))
    | cons m rest =>
      rw [hi] at h
      cases m with
      | tick =>
        simp only [State.takeMove, State.clockTick, State.withInbox_unit, hu] at h
        split at h
        · rename_i hn; exact .lastTick w n rest hu hn hi (complete_next.1 h)
        · rename_i hn; exact .busyTick w n rest hu (by omega) hi (by simpa using h.symm)
      | awaitIdle =>
        exact .awaited w n rest hu hi (complete_next.1 (by simpa [State.takeMove, State.letComplete, hu] using h))
      | rst d => exact .reset d rest (heldAccess_busy hu) hi (by simpa [State.takeMove] using h.symm)
      | access a =>
        cases hs : s.stalled with
        | some b =>
          exact .completes w n hu (.inr ⟨b, a, rest, hs, hi⟩)
            (complete_next.1 (by simpa [State.takeMove, State.letComplete, hu, hs] using h))
        | none =>
          simp only [State.takeMove, hs, Option.isSome_none, Bool.false_eq_true, if_false] at h
          cases hm : s.mustStall a with
          | true =>
            have hm' : (s.withInbox rest).mustStall a = true := hm
            exact .stalls a rest hs hi hm (by injection h with h; rw [← h, State.arrive, if_pos hm'])
          | false =>
            have hm' : (s.withInbox rest).mustStall a = false := hm
            exact .performs a rest hs hi hm (by injection h with h; rw [← h, State.arrive, hm']; rfl)

end Sys2Proof.Machine
end

