-- ==== Sys2Proof/Laws/Window.lean ====
section
/-! SUPPORT. What a CMD write and one access can do, said once each. -/

namespace Sys2Proof.Machine

open Sys2Proof

theorem offset_ext {o p : Offset} (h : o.toNat = p.toNat) : o = p := BitVec.eq_of_toNat_eq h

/-- The control registers that have an effect, by offset (spec/10_state.md R30). -/
theorem windowTarget_opram {o : Offset} : windowTarget o = .opram ↔ o.toNat < 0x200 := by
  unfold windowTarget; split_ifs <;> simp_all

theorem windowTarget_cmd {o : Offset} (h : windowTarget o = .cmd) : o = 0x200 := by
  apply offset_ext; unfold windowTarget at h; split_ifs at h; assumption

theorem windowTarget_status {o : Offset} (h : windowTarget o = .status) : o = 0x204 := by
  apply offset_ext; unfold windowTarget at h; split_ifs at h; assumption

theorem windowTarget_ctrl {o : Offset} (h : windowTarget o = .ctrl) : o = 0x210 := by
  apply offset_ext; unfold windowTarget at h; split_ifs at h; assumption

/-- The four outcomes of a CMD write (spec/60_exceptions.md R170). -/
inductive CmdWriteCase (w : Word) (s t : State) : Prop where
  /-- ERR is set: discarded (R174) -/
  | discarded (he : s.err = true) (ht : t = s)
  /-- BUSY: CMD_BUSY -/
  | refusedBusy (v : Word) (n : Nat) (he : s.err = false) (hu : s.unit = .busy v n) (ht : t = s.recordError .cmdBusy w)
  /-- IDLE and not a command: refused by cause -/
  | refused (e : CommandError) (he : s.err = false) (hu : s.unit = .idle) (hd : decode w = .error e)
      (ht : t = (s.withDone false).recordError e w)
  /-- accepted -/
  | accepted (i : Instr) (he : s.err = false) (hu : s.unit = .idle) (hd : decode w = .ok i)
      (ht : t = (s.withDone false).withUnit (.busy w (latencyOf i)))

theorem onCmdWrite_cases (w : Word) (s : State) : CmdWriteCase w s (s.onCmdWrite w) := by
  unfold State.onCmdWrite
  split
  · rename_i he; exact .discarded he rfl
  · rename_i he
    have he : s.err = false := by simpa using he
    split
    · rename_i v n hu; exact .refusedBusy v n he hu rfl
    · rename_i hu
      split
      · rename_i e hd; exact .refused e he hu hd rfl
      · rename_i i hd; exact .accepted i he hu hd rfl

/-- What performing one access can do. -/
inductive PerformCase (a : Access) (s t : State) : Prop where
  /-- a read, a bus error, or a write that has no effect: the answer is all -/
  | answers (r : Response) (ht : t = s.respond r)
  /-- an OPRAM write (spec/20_memory.md R56) -/
  | stores (w : Word) (hk : a.kind = .write w) (ho : a.offset.toNat < 0x200) (hal : a.offset.toNat % 4 = 0)
      (ht : t = (s.withOpram (s.opram.write a.offset.toNat 4 w.toNat)).respond ⟨none, false⟩)
  /-- a CMD write -/
  | command (w : Word) (ha : a = ⟨0x200, 4, .write w⟩) (ht : t = (s.onCmdWrite w).respond ⟨none, false⟩)
  /-- a STATUS write -/
  | status (w : Word) (ha : a = ⟨0x204, 4, .write w⟩) (ht : t = (s.writeStatus w).respond ⟨none, false⟩)
  /-- a CTRL write -/
  | control (w : Word) (ha : a = ⟨0x210, 4, .write w⟩) (ht : t = (s.writeCtrl w).respond ⟨none, false⟩)

theorem Access.legal_iff {a : Access} : a.legal = true ↔ a.bytes = 4 ∧ a.offset.toNat % 4 = 0 := by
  simp [Access.legal]

theorem perform_cases (a : Access) (s : State) : PerformCase a s (s.perform a) := by
  obtain ⟨o, n, k⟩ := a
  unfold State.perform
  split
  · rename_i hl
    obtain ⟨hb, hal⟩ := Access.legal_iff.1 hl
    cases k with
    | read => exact .answers _ rfl
    | write w =>
      simp only at hb hal
      subst hb
      simp only [State.windowWrite]
      cases ht : windowTarget o with
      | opram => exact .stores w rfl (windowTarget_opram.1 ht) hal rfl
      | cmd => exact .command w (by rw [windowTarget_cmd ht]) rfl
      | status => exact .status w (by rw [windowTarget_status ht]) rfl
      | ctrl => exact .control w (by rw [windowTarget_ctrl ht]) rfl
      | errcause => exact .answers _ rfl
      | errcmd => exact .answers _ rfl
      | id => exact .answers _ rfl
      | reserved => exact .answers _ rfl
  · exact .answers _ rfl

/-- An access to an OPRAM offset changes operand RAM and the answers only. -/
theorem perform_opram {a : Access} (h : windowTarget a.offset = .opram) (s : State) :
    (∃ r, s.perform a = s.respond r) ∨ ∃ w : Word, a.kind = .write w ∧ a.offset.toNat + 4 ≤ 512 ∧ s.perform a =
      (s.withOpram (s.opram.write a.offset.toNat 4 w.toNat)).respond ⟨none, false⟩ := by
  cases perform_cases a s with
  | answers r ht => exact .inl ⟨r, ht⟩
  | stores w hk ho hal ht => exact .inr ⟨w, hk, by omega, ht⟩
  | command w ha ht => subst ha; exact absurd (windowTarget_opram.1 h) (by simp)
  | status w ha ht => subst ha; exact absurd (windowTarget_opram.1 h) (by simp)
  | control w ha ht => subst ha; exact absurd (windowTarget_opram.1 h) (by simp)

/-! ### Steps and runs -/

theorem runFor_zero (s : State) : runFor 0 s = .next s := rfl

/-- A run is a step and the rest of the run. -/
theorem runFor_succ {k : Nat} {s t : State} (h : step s = .next t) : runFor (k + 1) s = runFor k t := by
  have h' : Sys2Proof.core.step s = .next t := h
  simp only [runFor, Host.Core.run, h']
  rfl

/-- What does not stall: any access while the unit is IDLE, and the control registers at any time (R57). -/
theorem mustStall_false {s : State} {a : Access} (h : s.unit = .idle ∨ 0x200 ≤ a.offset.toNat) : s.mustStall a = false := by
  rcases h with h | h
  · simp [State.mustStall, busy_of_idle h]
  · have : ¬ windowTarget a.offset = .opram := fun c => by have := windowTarget_opram.1 c; omega
    simp [State.mustStall, this]

/-- An access that arrives and does not stall is performed in the same step. -/
theorem step_access {s : State} {a : Access} {rest : List HostMove} (hs : s.stalled = none)
    (hi : s.inbox = .access a :: rest) (hm : s.mustStall a = false) :
    step s = .next ((s.withInbox rest).perform a) := by
  have hh : s.heldAccess = none := by simp [State.heldAccess, hs]
  have hm' : (s.withInbox rest).mustStall a = false := hm
  simp [step, hh, hi, State.takeMove, hs, State.arrive, hm']

end Sys2Proof.Machine
end

