-- ==== Sys2Proof/Tests/Slice0.lean ====
section
/-! SUPPORT. Small tests with expected results from spec/30_encoding.md, spec/90 and spec/95_test_vectors.md, and one witness
for the hypotheses of each statement that has some. -/

namespace Sys2Proof.Tests

open Sys2Proof Sys2Proof.Machine Sys2Proof.Spec

/-! ### WellFormed refuses ill-formed statements (R89) -/

theorem test_wellFormed_accepts : (Stmt.fadd 15 0 15).wellFormed = true ∧ (Stmt.fst 15 15).wellFormed = true ∧
    (Stmt.fcswap 15 15 1).wellFormed = true := by decide

theorem test_regOk_refuses_f16 : (Stmt.fadd 16 1 2).wellFormed = false ∧ (Stmt.fadd 1 16 2).wellFormed = false ∧
    (Stmt.fadd 1 2 16).wellFormed = false ∧ (Stmt.fzero 16).wellFormed = false := by decide

theorem test_slotOk_refuses_s16 : (Stmt.fld 1 16).wellFormed = false ∧ (Stmt.fst 16 1).wellFormed = false ∧
    (Stmt.fmov 1 2 16).wellFormed = false := by decide

theorem test_condOk_refuses_2 : (Stmt.fcswap 1 2 2).wellFormed = false := by decide

/-! ### Decoding: words laid out from R81 and R84 as RSV, C, B, A, D, OP -/

theorem test_decode_fadd : decode 0b00000000000_0_0010_0001_0011_00000001 = .ok (.fadd 3 1 2) := by rfl
theorem test_decode_fsub : decode 0b00000000000_0_1111_0000_1000_00000010 = .ok (.fsub 8 0 15) := by rfl
theorem test_decode_fmul : decode 0b00000000000_0_0100_0011_0101_00000011 = .ok (.fmul 5 3 4) := by rfl
theorem test_decode_fsqr : decode 0b00000000000_0_0000_0100_1001_00000100 = .ok (.fsqr 9 4) := by rfl
theorem test_decode_fneg : decode 0b00000000000_0_0000_0001_0010_00000101 = .ok (.fneg 2 1) := by rfl
theorem test_decode_finv : decode 0b00000000000_0_0000_1111_0001_00000110 = .ok (.finv 1 15) := by rfl
theorem test_decode_fcswap : decode 0b00000000000_1_0010_0001_0000_00000111 = .ok (.fcswap 1 2 true) := by rfl
theorem test_decode_fld : decode 0b00000000000_0_0011_0000_0101_00001000 = .ok (.fld 5 3) := by rfl
theorem test_decode_fst : decode 0b00000000000_0_0010_0101_0000_00001001 = .ok (.fst 2 5) := by rfl

/-- The host's numbering of a word is that of R81; fewer or more bits are no command. -/
theorem test_decodeTableWord : decodeTableWord 32 0x00025009 = some (.fst 2 5) ∧ decodeTableWord 32 0x0000000A = none := by
  decide +kernel

/-! ### The commands on vectors of spec/95 -/

/-- The field prime less one. -/
def pLess1 : FieldValue := ⟨2 ^ 255 - 20, by decide⟩

/-- A small field value. -/
def small (n : Fin 1000000) : FieldValue := ⟨n.val, Nat.lt_trans n.isLt (by decide)⟩

/-- F1 and F2 hold two values, the rest is as after reset. -/
def start (v1 v2 : FieldValue) : State := (State.reset.writeF 1 v1).writeF 2 v2

/-- What a register holds after a command; none if the command does not answer a next state. -/
def after (i : Instr) (s : State) (r : Reg) : Option Nat :=
  match exec i s with
  | .next t => some (t.readF r).val
  | .fault _ => none
  | .refused _ => none

/-- An OPRAM byte after a command. -/
def byteAfter (i : Instr) (s : State) (a : Nat) : Option Byte :=
  match exec i s with
  | .next t => some (t.opram.readByte a)
  | .fault _ => none
  | .refused _ => none

/-- V1.2 -/
theorem test_fadd_wraps : after (.fadd 3 1 2) (start pLess1 (small 1)) 3 = some 0 := by decide +kernel
/-- V1.8 -/
theorem test_fadd_in_place : after (.fadd 1 1 1) (start pLess1 (small 0)) 1 = some
    0x7fffffffffffffffffffffffffffffffffffffffffffffffffffffffffffffeb := by decide +kernel
/-- V2.1 -/
theorem test_fsub_borrows : after (.fsub 3 1 2) (start (small 0) (small 1)) 3 = some
    0x7fffffffffffffffffffffffffffffffffffffffffffffffffffffffffffffec := by decide +kernel
/-- V2.6: the operands are not swapped. -/
theorem test_fsub_order : after (.fsub 3 1 2) (start (small 1) pLess1) 3 = some 2 := by decide +kernel
/-- V3.2 -/
theorem test_fmul_reduces : after (.fmul 3 1 2) (start ⟨2 ^ 128, by decide⟩ ⟨2 ^ 128, by decide⟩) 3 = some 38 := by
  decide +kernel
/-- V3.7 -/
theorem test_fmul_of_minus_one : after (.fmul 2 1 2) (start pLess1 (small 2)) 2 = some
    0x7fffffffffffffffffffffffffffffffffffffffffffffffffffffffffffffeb := by decide +kernel
/-- V4.7 -/
theorem test_fsqr_reduces : after (.fsqr 3 1) (start ⟨2 ^ 254, by decide⟩ (small 0)) 3 = some
    0x600000000000000000000000000000000000000000000000000000000000004c := by decide +kernel
/-- V4.8 -/
theorem test_fsqr_in_place : after (.fsqr 1 1) (start ⟨2 ^ 128, by decide⟩ (small 0)) 1 = some 38 := by decide +kernel
/-- V5.1 -/
theorem test_fneg_of_zero : after (.fneg 3 1) (start (small 0) (small 0)) 3 = some 0 := by decide +kernel
/-- V5.4 -/
theorem test_fneg : after (.fneg 3 1) (start ⟨2 ^ 254, by decide⟩ (small 0)) 3 = some
    0x3fffffffffffffffffffffffffffffffffffffffffffffffffffffffffffffed := by decide +kernel
/-- V6.1 -/
theorem test_finv_of_zero : after (.finv 3 1) (start (small 0) (small 7)) 3 = some 0 := by decide +kernel
/-- V6.6 -/
theorem test_finv : after (.finv 3 1) (start (small 121666) (small 0)) 3 = some
    0x52036cee2b6ffe738cc740797779e89800700a4d4141d8ab75eb4dca135978a4 := by decide +kernel
/-- V7.1 -/
theorem test_fcswap_swaps : after (.fcswap 1 2 true) (start (small 5) (small 7)) 1 = some 7 ∧
    after (.fcswap 1 2 true) (start (small 5) (small 7)) 2 = some 5 := by decide +kernel
/-- V7.2 and V7.3 -/
theorem test_fcswap_keeps : after (.fcswap 1 2 false) (start (small 5) (small 7)) 1 = some 5 ∧
    after (.fcswap 1 1 true) (start (small 9) (small 7)) 1 = some 9 := by decide +kernel

/-- 32 bytes in slot 3, the first and last given and the rest 0xFF. -/
def slot3 (first last : Byte) : State :=
  State.reset.withOpram ((List.range 32).map fun k => (96 + k, if k = 0 then first else if k = 31 then last else 0xFF))

/-- V8.8 and V8.4 -/
theorem test_fld_reduces : after (.fld 5 3) (slot3 0xFF 0xFF) 5 = some 18 ∧
    after (.fld 5 3) (slot3 0xED 0x7F) 5 = some 0 := by decide +kernel
/-- V8.3 and V8.10 -/
theorem test_fld_ignores_bit_255 : after (.fld 5 3) (slot3 0xEC 0x7F) 5 = some (2 ^ 255 - 20) ∧
    after (.fld 5 3) (slot3 0xED 0xFF) 5 = some 0 := by decide +kernel
/-- V9.3: the bytes of p − 1 in slot 2, and the byte after the slot. -/
theorem test_fst_bytes : byteAfter (.fst 2 1) (start pLess1 (small 0)) 64 = some 0xEC ∧
    byteAfter (.fst 2 1) (start pLess1 (small 0)) 94 = some 0xFF ∧
    byteAfter (.fst 2 1) (start pLess1 (small 0)) 95 = some 0x7F ∧
    byteAfter (.fst 2 1) (start pLess1 (small 0)) 96 = some 0x00 := by decide +kernel
/-- V9.2: the bytes above a small value are written too. -/
theorem test_fst_overwrites : byteAfter (.fst 3 1) ((slot3 0xFF 0xFF).writeF 1 (small 18)) 96 = some 0x12 ∧
    byteAfter (.fst 3 1) ((slot3 0xFF 0xFF).writeF 1 (small 18)) 127 = some 0x00 := by decide +kernel

/-! ### The host interface on vectors of spec/95 -/

/-- What the host sees after a step: the registers STATUS, ERRCAUSE, ERRCMD and CTRL, and the newest answer. -/
structure Seen where
  status : Word
  errCause : Word
  errCmd : Word
  ctrl : Word
  answer : Option Response
  deriving DecidableEq, Repr

/-- What the host sees after one step with one move to come. -/
def seen (s : State) (m : HostMove) : Option Seen :=
  match step (s.withInbox [m]) with
  | .next t => some ⟨t.statusWord, t.errCauseWord, t.errCmd, t.ctrlWord, t.responses.head?⟩
  | .fault _ => none
  | .refused _ => none

/-- The unit is BUSY with the word of `fadd f3, f1, f2`. -/
def running : State := { start (small 5) (small 7) with unit := .busy 0x00021301 1 }

/-- ERR is set, with the record of V10.1, and DONE is set. -/
def failed : State := { State.reset with done := true, err := true, errCause := 1 }

/-- V10.2, V10.10: an illegal opcode, also with a reserved bit set. -/
theorem test_illegal_opcode :
    seen State.reset (writeTo 0x200 0x0000000A) = some ⟨4, 1, 0x0000000A, 0, some ⟨none, false⟩⟩ ∧
    seen State.reset (writeTo 0x200 0x8000000B) = some ⟨4, 1, 0x8000000B, 0, some ⟨none, false⟩⟩ := by decide +kernel
/-- V10.4 -/
theorem test_reserved_field :
    seen State.reset (writeTo 0x200 0x00121301) = some ⟨4, 2, 0x00121301, 0, some ⟨none, false⟩⟩ := by decide +kernel
/-- V10.14: an illegal word while BUSY. -/
theorem test_cmd_busy : seen running (writeTo 0x200 0x00000000) = some ⟨5, 3, 0, 0, some ⟨none, false⟩⟩ := by
  decide +kernel
/-- V10.13 -/
theorem test_discarded_while_err :
    seen failed (writeTo 0x200 0x00021301) = some ⟨6, 1, 0, 0, some ⟨none, false⟩⟩ := by decide +kernel
/-- V11.1, V11.2, V11.3 -/
theorem test_reads : seen State.reset (readFrom 0x214) = some ⟨0, 0, 0, 0, some ⟨some 0xED250100, false⟩⟩ ∧
    seen State.reset (readFrom 0x200) = some ⟨0, 0, 0, 0, some ⟨some 0, false⟩⟩ ∧
    seen State.reset (readFrom 0x800) = some ⟨0, 0, 0, 0, some ⟨some 0, false⟩⟩ := by decide +kernel
/-- V11.5, V11.7 -/
theorem test_ctrl : seen failed (writeTo 0x210 0x0000000F) = some ⟨0, 0, 0, 0, some ⟨none, false⟩⟩ ∧
    seen failed (writeTo 0x210 0x00000003) = some ⟨6, 1, 0, 3, some ⟨none, false⟩⟩ := by decide +kernel
/-- V11.8 -/
theorem test_bus_errors : seen failed (.access ⟨0x204, 1, .write 0xFF⟩) = some ⟨6, 1, 0, 0, some ⟨none, true⟩⟩ ∧
    seen failed (readFrom 0x002) = some ⟨6, 1, 0, 0, some ⟨some 0, true⟩⟩ := by decide +kernel
/-- V11.9 -/
theorem test_opram_word_is_little_endian :
    ((State.reset.windowWrite 0x020 0x04030201).opram.readByte 32 = 0x01) ∧
    ((State.reset.windowWrite 0x020 0x04030201).opram.readByte 35 = 0x04) := by decide +kernel
/-- V11.10, V11.11 -/
theorem test_status_write : seen failed (writeTo 0x204 0x00000002) = some ⟨4, 1, 0, 0, some ⟨none, false⟩⟩ ∧
    seen { failed with done := false } (writeTo 0x204 0x00000004) = some ⟨0, 0, 0, 0, some ⟨none, false⟩⟩ := by
  decide +kernel
/-- V11.12 -/
theorem test_irq : ({ failed with err := false, ieDone := true } : State).irq = true ∧ failed.irq = false := by
  decide +kernel

/-! ### Witnesses: the hypotheses of each statement can be met together, clause by clause -/

/-- The state has the invariant and the unit is BUSY. -/
theorem running_inv (moves : List HostMove) : Inv (running.withInbox moves) := by
  refine ⟨rfl, ?_, fun _ => rfl, fun _ => ⟨rfl, rfl⟩, fun h => Bool.noConfusion h, 
    ⟨fun h => absurd h (show ¬ (0 : BitVec 4) = 1 by decide), fun h => absurd h (show ¬ (0 : BitVec 4) = 2 by decide)⟩,
    fun _ h => by cases h⟩
  intro w n h
  simp only [running, State.withInbox_unit, UnitState.busy.injEq] at h
  obtain ⟨rfl, rfl⟩ := h
  exact ⟨.fadd 3 1 2, rfl, le_rfl, by simp [latencyOf, Config.latFadd]⟩

/-- The state has the invariant, an error is recorded and the unit is IDLE. -/
theorem failed_inv (moves : List HostMove) : Inv (failed.withInbox moves) := by
  constructor <;> simp [failed, State.reset, State.busy, UnitState.isBusy, Memory.wf, Memory.wfFrom]
  rfl

theorem witness_ResetAbandonsTheCommandAndClears :
    (running.withInbox [.rst none]).heldAccess = none ∧ (running.withInbox [.rst none]).inbox = .rst none :: [] ∧
    (0x00000004 : Word)[2] = true ∧ (running.withInbox [writeTo 0x210 4]).stalled = none ∧
    (running.withInbox [writeTo 0x210 4]).inbox = writeTo 0x210 4 :: [] := by decide +kernel

theorem witness_AccessDuringRstIsLost :
    (running.withInbox [.rst (some ⟨0xFFC, 4, .read⟩)]).heldAccess = none ∧
    (running.withInbox [.rst (some ⟨0xFFC, 4, .read⟩)]).inbox = .rst (some ⟨0xFFC, 4, .read⟩) :: [] := by decide +kernel

theorem witness_FaddAddsModP : (0x000FFF01 : Word) &&& 0xFFF000FF = 0x00000001 := by decide
theorem witness_FsubSubtractsModP : (0x000FFF02 : Word) &&& 0xFFF000FF = 0x00000002 := by decide
theorem witness_FmulMultipliesModP : (0x000FFF03 : Word) &&& 0xFFF000FF = 0x00000003 := by decide
theorem witness_FsqrSquaresModP : (0x0000FF04 : Word) &&& 0xFFFF00FF = 0x00000004 := by decide
theorem witness_FnegNegatesModP : (0x0000FF05 : Word) &&& 0xFFFF00FF = 0x00000005 ∧
    (State.reset.readF 15).val = 0 := by decide +kernel
theorem witness_FinvInvertsModP : (0x0000FF06 : Word) &&& 0xFFFF00FF = 0x00000006 ∧
    ((start pLess1 pLess1).readF 1).val ≠ 0 := by decide +kernel
theorem witness_FcswapSwapsWhenConditionIsOne : (0x001FF007 : Word) &&& 0xFFE00FFF = 0x00000007 := by decide
theorem witness_FldLoadsTheSlotModP : (0x000F0F08 : Word) &&& 0xFFF0F0FF = 0x00000008 := by decide
theorem witness_FstStoresTheCanonicalBytes : (slot3 0xED 0xFF).opram.wf = true ∧
    (0x000FF009 : Word) &&& 0xFFF00FFF = 0x00000009 := by decide +kernel

theorem witness_FldAcceptsEveryByteString :
    (∀ j, j < 31 → (slot3 0xED 0x7F).opram.readByte (32 * (3 : Slot).val + j) =
      (slot3 0xED 0xFF).opram.readByte (32 * (3 : Slot).val + j)) ∧
    (∀ j, j < 7 → ((slot3 0xED 0x7F).opram.readByte (32 * (3 : Slot).val + 31)).getLsbD j =
      ((slot3 0xED 0xFF).opram.readByte (32 * (3 : Slot).val + 31)).getLsbD j) ∧
    (slot3 0xEC 0x7F).readSlot 3 = pLess1.val := by decide +kernel

theorem witness_EqualValuesHaveEqualBytes : (slot3 0xED 0xFF).opram.wf = true := by decide +kernel

theorem witness_SerializationRoundTrips : (slot3 0xED 0xFF).opram.wf = true ∧
    ¬ (slot3 0xED 0xFF).readSlot 3 < 2 ^ 255 - 19 ∧ (slot3 0xEC 0x7F).readSlot 3 < 2 ^ 255 - 19 := by decide +kernel

theorem witness_EncodeOfDecode : decode 0x001FF007 = .ok (.fcswap 15 15 true) := by rfl

theorem witness_OpcodeRowsDoNotOverlap : rowFst ∈ opcodeTable ∧ rowFst.selects 0x000FF009 = true := by decide +kernel

theorem witness_PseudoInstructions : (slot3 0xED 0xFF).opram.wf = true := by decide +kernel

/-- The state with an OPRAM read held. -/
def waiting : State := { running with stalled := some ⟨0x1FC, 4, .read⟩ }

theorem witness_StepRunsTheHeldCommand : decode 0x00021301 = .ok (.fadd 3 1 2) ∧ running.unit = .busy 0x00021301 1 ∧
    running.inbox = [] ∧ (running.withInbox [.tick]).inbox = .tick :: [] ∧
    (running.withInbox [.awaitIdle]).inbox = .awaitIdle :: [] ∧ waiting.unit = .busy 0x00021301 1 ∧
    waiting.stalled = some ⟨0x1FC, 4, .read⟩ ∧
    (waiting.withInbox [readFrom 0x204]).inbox = .access ⟨0x204, 4, .read⟩ :: [] :=
  ⟨rfl, rfl, rfl, rfl, rfl, rfl, rfl, rfl⟩

theorem witness_StepKeepsTheInvariant : Inv (running.withInbox [readFrom 0x000]) ∧
    step (running.withInbox [readFrom 0x000]) = .next { running with stalled := some ⟨0x000, 4, .read⟩ } :=
  ⟨running_inv _, rfl⟩

theorem witness_StepNeverStops : Inv (running.withInbox [.rst none]) := running_inv _

theorem witness_EveryRunEnds : Inv (running.withInbox [readFrom 0x000, writeTo 0x200 0, .awaitIdle, .tick]) :=
  running_inv _

theorem witness_CmdWriteOutcomes :
    (failed.stalled = none ∧ failed.err = true) ∧
    (running.stalled = none ∧ running.err = false ∧ running.unit = .busy 0x00021301 1) ∧
    (State.reset.stalled = none ∧ State.reset.err = false ∧ State.reset.unit = .idle) ∧
    (0x00000000 : Word).toNat % 256 = 0 ∧ 10 ≤ (0x8000000A : Word).toNat % 256 ∧
    (1 ≤ (0x00200009 : Word).toNat % 256 ∧ (0x00200009 : Word).toNat % 256 ≤ 9 ∧ ReservedBitSet 0x00200009) ∧
    (1 ≤ (0x00000001 : Word).toNat % 256 ∧ (0x00000001 : Word).toNat % 256 ≤ 9 ∧ ¬ ReservedBitSet 0x00000001) ∧
    (∀ during, HostMove.rst during ∉ [readFrom 0x000, .tick]) ∧
    (∀ w' : Word, w'[2] = true → writeTo 0x210 w' ∉ [readFrom 0x000, .tick]) := by
  unfold ReservedBitSet
  refine ⟨by decide +kernel, by decide +kernel, by decide +kernel, by decide +kernel, by decide +kernel, by decide +kernel,
    by decide +kernel, ?_, ?_⟩
  · simp [readFrom]
  · simp [writeTo, readFrom]

theorem witness_CmdBusyLeavesTheRunningCommand : decode 0x00021301 = .ok (.fadd 3 1 2) ∧
    running.unit = .busy 0x00021301 1 ∧ running.err = false ∧ running.stalled = none ∧
    (running.withInbox [writeTo 0x200 0x00001204]).inbox = [writeTo 0x200 0x00001204] :=
  ⟨rfl, rfl, rfl, rfl, rfl⟩

theorem witness_ErrorRecordIsSticky :
    (failed.err = true ∧ failed.stalled = none) ∧
    (Inv (failed.withInbox [.tick]) ∧ step (failed.withInbox [.tick]) = .next failed ∧ failed.err = true) ∧
    (Inv (failed.withInbox [.rst none]) ∧ failed.err = true ∧
      ∃ t, step (failed.withInbox [.rst none]) = .next t ∧ t.err = false) ∧
    (∃ t, step (failed.withInbox [writeTo 0x204 4]) = .next t ∧ t.err = false) ∧
    ∃ t, step (failed.withInbox [writeTo 0x210 4]) = .next t ∧ t.err = false :=
  ⟨⟨rfl, rfl⟩, ⟨failed_inv _, rfl, rfl⟩, ⟨failed_inv _, rfl, _, rfl, rfl⟩, ⟨_, rfl, rfl⟩, ⟨_, rfl, rfl⟩⟩

theorem witness_ErrIsSetByRefusedCommandsOnly :
    (Inv (running.withInbox [writeTo 0x200 0]) ∧ ∃ t, step (running.withInbox [writeTo 0x200 0]) = .next t ∧
      running.err = false ∧ t.err = true) ∧
    ∃ t, step (State.reset.withInbox [writeTo 0x200 0]) = .next t ∧ State.reset.err = false ∧ t.err = true :=
  ⟨⟨running_inv _, _, rfl, rfl, rfl⟩, _, rfl, rfl, rfl⟩

theorem witness_DoneIsSetByCompletionOnly :
    (Inv (running.withInbox []) ∧ ∃ t, step (running.withInbox []) = .next t ∧ running.done = false ∧ t.done = true) ∧
    (Inv (failed.withInbox [writeTo 0x204 2]) ∧ ∃ t, step (failed.withInbox [writeTo 0x204 2]) = .next t ∧
      failed.done = true ∧ t.done = false) ∧
    (∃ t, step (failed.withInbox [.rst none]) = .next t ∧ t.done = false) ∧
    (∃ t, step (failed.withInbox [writeTo 0x210 4]) = .next t ∧ t.done = false) ∧
    ∃ t, step ((failed.withInbox [writeTo 0x200 0]).clearError) = .next t ∧ t.done = false :=
  ⟨⟨running_inv _, _, rfl, rfl, rfl⟩, ⟨failed_inv _, _, rfl, rfl, rfl⟩, ⟨_, rfl, rfl⟩, ⟨_, rfl, rfl⟩, ⟨_, rfl, rfl⟩⟩

/-- The invariant after reset with moves to come. -/
theorem idle_inv (moves : List HostMove) : Inv (State.reset.withInbox moves) := by
  constructor <;> simp [State.reset, State.busy, UnitState.isBusy, Memory.wf, Memory.wfFrom]

theorem witness_LeavesIdleOnlyByAccepting : Inv (State.reset.withInbox [writeTo 0x200 0x00000007]) ∧
    ∃ t, step (State.reset.withInbox [writeTo 0x200 0x00000007]) = .next t ∧ State.reset.unit = .idle ∧
      t.unit = .busy 0x00000007 Config.latFcswap := ⟨idle_inv _, _, rfl, rfl, rfl⟩

theorem witness_BusyHoldsTheOperands : ∃ t, step (running.withInbox [writeTo 0x000 1]) = .next t ∧
    running.unit = .busy 0x00021301 1 ∧ t.unit = .busy 0x00021301 1 := ⟨_, rfl, rfl, rfl⟩

theorem witness_LatencyIsOfTheOpcode : decode 0x00000007 = .ok (.fcswap 0 0 false) ∧
    decode 0x00121007 = .ok (.fcswap 1 2 true) ∧ (0x00000007 : Word).toNat % 256 = (0x00121007 : Word).toNat % 256 ∧
    ∃ s : State, s.unit = .busy 0x00000007 (latencyOf (.fcswap 0 0 false)) ∧
      s.inbox = List.replicate (latencyOf (.fcswap 0 0 false)) .tick ++ [] :=
  ⟨rfl, rfl, rfl, { State.reset with
    unit := .busy 0x00000007 (latencyOf (.fcswap 0 0 false))
    inbox := List.replicate (latencyOf (.fcswap 0 0 false)) .tick ++ [] }, rfl, rfl⟩

/-- The unit holds the word of `fst s2, f1`; F1 holds 5. -/
def storing : State := { running with unit := .busy 0x00021009 1 }

theorem storing_inv (moves : List HostMove) : Inv (storing.withInbox moves) := by
  obtain ⟨h1, -, h3, h4, h5, h6, h7⟩ := running_inv moves
  refine ⟨h1, ?_, fun _ => rfl, h4, h5, h6, h7⟩
  intro w n h
  simp only [storing, State.withInbox_unit, UnitState.busy.injEq] at h
  obtain ⟨rfl, rfl⟩ := h
  exact ⟨.fst 2 1, rfl, le_rfl, by simp [latencyOf, Config.latFst]⟩

theorem witness_WritersOfRegistersAndOpram :
    (Inv (running.withInbox []) ∧ ∃ t, step (running.withInbox []) = .next t ∧ t.f ≠ running.f) ∧
    (Inv (running.withInbox [.rst none]) ∧ ∃ t, step (running.withInbox [.rst none]) = .next t ∧ t.f ≠ running.f) ∧
    (Inv (storing.withInbox []) ∧ ∃ t, step (storing.withInbox []) = .next t ∧ t.opram ≠ storing.opram) ∧
    (Inv (State.reset.withInbox [writeTo 0x1FC 1]) ∧
      ∃ t, step (State.reset.withInbox [writeTo 0x1FC 1]) = .next t ∧ t.opram ≠ State.reset.opram) :=
  ⟨⟨running_inv _, _, rfl, by decide +kernel⟩, ⟨running_inv _, _, rfl, by decide +kernel⟩,
    ⟨storing_inv _, _, rfl, by decide +kernel⟩, idle_inv _, _, rfl, by decide +kernel⟩

theorem witness_HostCannotReadFieldRegisters :
    (∀ w n k a, running.unit = .busy w n → decode w ≠ .ok (.fst k a)) ∧ ∃ t, step running = .next t := by
  refine ⟨?_, _, rfl⟩
  intro w n k a h
  simp only [running, UnitState.busy.injEq] at h
  obtain ⟨rfl, rfl⟩ := h
  rw [show decode 0x00021301 = .ok (.fadd 3 1 2) from rfl]
  simp

theorem witness_TimingIsDataIndependent : TimingTwin running { running with f := State.reset.f, opram := [(511, 1)] } ∧
    ∃ t, runFor 2 running = .next t := ⟨by constructor <;> rfl, _, rfl⟩

theorem witness_StatusReadsAndWrites : failed.stalled = none ∧
    (failed.withInbox [writeTo 0x204 6]).inbox = writeTo 0x204 6 :: [] := ⟨rfl, rfl⟩

theorem witness_CtrlReadsAndWrites : running.stalled = none ∧ (0x00000003 : Word)[2] = false ∧
    (0x00000007 : Word)[2] = true ∧ (running.withInbox [writeTo 0x210 7]).inbox = writeTo 0x210 7 :: [] := by
  decide +kernel

theorem witness_ControlRegisterReads : running.stalled = none ∧
    (running.withInbox [readFrom 0xFFC]).inbox = readFrom 0xFFC :: [] ∧ 0x200 ≤ (0xFFC : Offset).toNat ∧
    (0xFFC : Offset).toNat % 4 = 0 ∧ 0x200 ≤ (0x200 : Offset).toNat ∧ (0x200 : Offset).toNat % 4 = 0 := by decide +kernel

theorem witness_ReadOnlyAndReservedWritesAreIgnored : running.stalled = none ∧
    (running.withInbox [writeTo 0x218 1]).inbox = writeTo 0x218 1 :: [] ∧ (0x218 : Offset).toNat % 4 = 0 ∧
    0x218 ≤ (0x218 : Offset).toNat ∧ (0x00000001 : Word)[1] = (0xFFFFFFF9 : Word)[1] ∧
    (0x00000001 : Word)[2] = (0xFFFFFFF9 : Word)[2] ∧ (0x00000001 : Word)[0] = (0xFFFFFFF9 : Word)[0] := by decide +kernel

theorem witness_ReadsHaveNoSideEffect : (⟨0x204, 4, .read⟩ : Access).kind = .read ∧
    ((⟨0x208, 4, .write 1⟩ : Access).kind = .write 1 ∧ (⟨0x208, 4, .write 1⟩ : Access).offset.toNat ≠ 0x200 ∧
      (⟨0x208, 4, .write 1⟩ : Access).offset.toNat ≠ 0x204 ∧ (⟨0x208, 4, .write 1⟩ : Access).offset.toNat ≠ 0x210) ∧
    ((slot3 0xED 0xFF).opram.wf = true ∧ (⟨0x1FC, 4, .write 1⟩ : Access).kind = .write 1 ∧
      (⟨0x1FC, 4, .write 1⟩ : Access).legal = true ∧ (⟨0x1FC, 4, .write 1⟩ : Access).offset.toNat < 0x200) := by
  decide +kernel

theorem witness_BusErrorsChangeNothing : (2 ≠ 4 ∨ (0x200 : Offset).toNat % 4 ≠ 0) ∧ (0x002 : Offset).toNat % 4 ≠ 0 ∧
    running.stalled = none ∧ 0x200 ≤ (0x200 : Offset).toNat ∧ State.reset.unit = .idle ∧
    ({ State.reset with stalled := some ⟨0x002, 4, .read⟩ } : State).stalled = some ⟨0x002, 4, .read⟩ := by decide +kernel

theorem witness_HostWordsAreLittleEndian : State.reset.unit = .idle ∧ State.reset.stalled = none ∧
    (0x1FC : Offset).toNat < 0x200 ∧ (0x1FC : Offset).toNat % 4 = 0 ∧ State.reset.opram.wf = true ∧
    (State.reset.withInbox [readFrom 0x1FC]).inbox = readFrom 0x1FC :: [] ∧
    (State.reset.withInbox [writeTo 0x1FC 7]).inbox = writeTo 0x1FC 7 :: [] := by decide +kernel

theorem witness_OpramAccessStallsWhileBusy :
    (running.unit = .busy 0x00021301 1 ∧ running.stalled = none ∧ (0x1FC : Offset).toNat < 0x200) ∧
    (waiting.stalled = some ⟨0x1FC, 4, .read⟩ ∧ waiting.busy = true ∧
      ∃ t, step { waiting with unit := .busy 0x00021301 2, inbox := [.tick] } = .next t ∧ t.busy = true) ∧
    (({ waiting with unit := .idle } : State).stalled = some ⟨0x1FC, 4, .read⟩ ∧
      ({ waiting with unit := .idle } : State).unit = .idle) ∧
    (waiting.withInbox [.rst none]).inbox = .rst none :: [] ∧ 0x200 ≤ (0x200 : Offset).toNat :=
  ⟨⟨rfl, rfl, by decide⟩, ⟨rfl, rfl, _, rfl, rfl⟩, ⟨rfl, rfl⟩, rfl, by decide⟩

theorem witness_ReadAfterFstSeesTheStore : (7 : Nat) < 8 ∧ (start pLess1 pLess1).unit = .idle ∧
    (start pLess1 pLess1).err = false ∧ (start pLess1 pLess1).stalled = none ∧ (start pLess1 pLess1).opram.wf = true := by
  decide +kernel

theorem witness_FldSeesEarlierWrites : (7 : Nat) < 8 ∧ (slot3 0xED 0xFF).unit = .idle ∧
    (slot3 0xED 0xFF).err = false ∧ (slot3 0xED 0xFF).stalled = none ∧ (slot3 0xED 0xFF).opram.wf = true := by
  decide +kernel

theorem witness_CompletionRaceHasBothOutcomes : decode 0x00021301 = .ok (.fadd 3 1 2) ∧
    running.unit = .busy 0x00021301 1 ∧ running.stalled = none ∧ running.err = false ∧
    (running.withInbox [writeTo 0x200 0, .tick]).inbox = writeTo 0x200 0 :: .tick :: [] ∧
    (running.withInbox [.tick, writeTo 0x200 0]).inbox = .tick :: writeTo 0x200 0 :: [] ∧
    (0x00000002 : Word)[1] = true :=
  ⟨rfl, rfl, rfl, rfl, rfl, rfl, rfl⟩

theorem witness_WindowMap : windowOffset (hostAddress 0xFFF) = some 0xFFF ∧ windowTarget 0x1FF = .opram ∧
    windowTarget 0x200 = .cmd ∧ windowTarget 0x214 = .id ∧ windowTarget 0x218 = .reserved ∧
    windowTarget 0x202 = .reserved := by
  refine ⟨?_, rfl, rfl, rfl, rfl, rfl⟩
  simp [windowOffset, hostAddress]

/-! ### How a program runs: a word placed by the host's `withFetchWord` is run by the next step -/

theorem test_withFetchWord : ∃ t, step ((start (small 5) (small 7)).withFetchWord 32 0x00021301) = .next t ∧
    (t.readF 3).val = 12 ∧ t.done = true ∧ t.unit = .idle := ⟨_, rfl, by decide +kernel, rfl, rfl⟩

end Sys2Proof.Tests
end

section
/-! SUPPORT. The steps of the machine in both directions: every case of `StepCase` is a step, and what a step does to the
block in five coarser cases. -/

namespace Sys2Proof.Machine

open Sys2Proof Sys2Proof.Spec

/-! ### From the case to the step -/

theorem heldAccess_of_none {s : State} (h : s.stalled = none) : s.heldAccess = none := by
  simp [State.heldAccess, h]

/-- With no held access that can complete, the next move reaches the block. -/
theorem step_takes_move {s : State} {m : HostMove} {rest : List HostMove} (hh : s.heldAccess = none)
    (hi : s.inbox = m :: rest) : step s = s.takeMove m rest := by
  simp only [step, hh, hi]

/-- The converse of `step_cases`. -/
theorem StepCase.step_eq {s t : State} (h : StepCase s t) : step s = .next t := by
  cases h with
  | held a hb hs ht => simp only [step, heldAccess_idle hb, hs, ht]
  | waits hs hi hb ht => simp only [step, heldAccess_of_none hs, hi, State.letComplete, hb, ht]
  | completes w n hb hi ht =>
    have hc := complete_next.2 ht
    obtain hi | ⟨b, a, rest, hs, hi⟩ := hi
    · simp only [step, heldAccess_busy hb, hi, State.letComplete, hb, hc]
    · rw [step_takes_move (heldAccess_busy hb) hi]
      simp [State.takeMove, State.letComplete, hs, hb, hc]
  | lastTick w n rest hb hn hi ht =>
    rw [step_takes_move (heldAccess_busy hb) hi]
    simp [State.takeMove, State.clockTick, hb, hn, complete_next.2 ht]
  | busyTick w n rest hb hn hi ht =>
    rw [step_takes_move (heldAccess_busy hb) hi]
    simp [State.takeMove, State.clockTick, hb, Nat.not_le.2 hn, ht]
  | idleTime m rest hm hs hb hi ht =>
    rw [step_takes_move (heldAccess_of_none hs) hi]
    obtain rfl | rfl := hm
    · simp [State.takeMove, State.clockTick, hb, ht]
    · simp [State.takeMove, State.letComplete, hb, ht]
  | awaited w n rest hb hi ht =>
    rw [step_takes_move (heldAccess_busy hb) hi]
    simp [State.takeMove, State.letComplete, hb, complete_next.2 ht]
  | reset during rest hh hi ht => rw [step_takes_move hh hi, ht]; rfl
  | stalls a rest hs hi hm ht =>
    have hm' : (s.withInbox rest).mustStall a = true := hm
    rw [step_takes_move (heldAccess_of_none hs) hi]
    simp [State.takeMove, hs, State.arrive, hm', ht]
  | performs a rest hs hi hm ht => rw [step_access hs hi hm, ht]

/-! ### Completion, as R27 words it -/

theorem thenCompleted_next {u : State} : thenCompleted (.next u) = .next u.finish := rfl

/-- A completion with the moves to come replaced completes the held command. -/
theorem Completes.completesHeld {s t : State} {w : Word} {n : Nat} {rest : List HostMove} (hb : s.unit = .busy w n)
    (h : Completes w (s.withInbox rest) t) : ∃ i, CompletesHeld s t i := by
  obtain ⟨-, -, -, -, -, -, -, -, hinbox, -⟩ := h.control
  obtain ⟨i, u, hd, he, rfl⟩ := h
  exact ⟨i, w, n, hb, hd, by rw [hinbox]; simp only [State.withInbox_inbox, he, thenCompleted_next]⟩

/-! ### Which commands write what (spec/10_state.md R22) -/

/-- Only FST writes OPRAM. -/
theorem exec_opram {i : Instr} {s t : State} (hi : ∀ k a, i ≠ .fst k a) (h : exec i s = .next t) :
    t.opram = s.opram := by
  cases i with
  | fst k a => exact absurd rfl (hi k a)
  | fcswap a b c => rw [exec_fcswap] at h; cases h; split <;> rfl
  | _ => cases h; rfl

/-- FST writes no field register. -/
theorem exec_fst_f {k : Slot} {a : Reg} {s t : State} (h : exec (.fst k a) s = .next t) : t.f = s.f := by
  rw [exec_fst] at h; cases h; simp

end Sys2Proof.Machine

namespace Sys2Proof.Spec

open Sys2Proof Sys2Proof.Machine

variable {s t : State} {i : Instr}

/-- The state a completion leaves: what Exec gave, IDLE and DONE. -/
theorem CompletesHeld.exec_eq (h : CompletesHeld s t i) :
    ∃ u, exec i (s.withInbox t.inbox) = .next u ∧ t = u.finish := by
  obtain ⟨w, n, -, -, he⟩ := h
  obtain ⟨u, hu, -⟩ := exec_spec i (s.withInbox t.inbox)
  rw [hu, thenCompleted_next] at he
  exact ⟨u, hu, by simpa using he.symm⟩

theorem CompletesHeld.completes (h : CompletesHeld s t i) :
    ∃ w n, s.unit = .busy w n ∧ Completes w (s.withInbox t.inbox) t := by
  obtain ⟨u, hu, ht⟩ := h.exec_eq
  obtain ⟨w, n, hb, hd, -⟩ := h
  exact ⟨w, n, hb, i, u, hd, hu, ht⟩

theorem CompletesHeld.not_idle (h : CompletesHeld s t i) : s.unit ≠ .idle := by
  obtain ⟨w, n, hb, -⟩ := h
  rw [hb]
  exact UnitState.noConfusion

theorem CompletesHeld.unit (h : CompletesHeld s t i) : t.unit = .idle := by
  obtain ⟨u, -, rfl⟩ := h.exec_eq; rfl

theorem CompletesHeld.done (h : CompletesHeld s t i) : t.done = true := by
  obtain ⟨u, -, rfl⟩ := h.exec_eq; rfl

theorem CompletesHeld.opram (h : CompletesHeld s t i) (hi : ∀ k a, i ≠ .fst k a) : t.opram = s.opram := by
  obtain ⟨u, hu, rfl⟩ := h.exec_eq
  exact (exec_opram hi hu).trans (State.withInbox_opram s _)

theorem CompletesHeld.fst_f {k : Slot} {a : Reg} (h : CompletesHeld s t (.fst k a)) : t.f = s.f := by
  obtain ⟨u, hu, rfl⟩ := h.exec_eq
  exact (exec_fst_f hu).trans (State.withInbox_f s _)

end Sys2Proof.Spec

namespace Sys2Proof.Machine

open Sys2Proof Sys2Proof.Spec

/-! ### What a step does to the block -/

/-- Only time passes and an access may come to be held: the data and the status bits stay, a BUSY unit may have one cycle
less to go. -/
structure OnlyTimePasses (s t : State) : Prop where
  f : t.f = s.f
  opram : t.opram = s.opram
  done : t.done = s.done
  err : t.err = s.err
  errCause : t.errCause = s.errCause
  errCmd : t.errCmd = s.errCmd
  unit : t.unit = s.unit ∨ ∃ w n, s.unit = .busy w n ∧ 1 < n ∧ t.unit = .busy w (n - 1)
  stalled : ∀ a, t.stalled = some a → s.stalled = some a ∨ windowTarget a.offset = .opram

/-- The steps by what they do to the block: the ten ways of `StepCase` with the three completions and the four in which only
time passes taken together. -/
inductive StepEffect (s t : State) : Prop where
  | completes (i : Instr) (h : CompletesHeld s t i)
  | releases (a : Access) (hu : s.unit = .idle) (hs : s.stalled = some a) (ht : t = s.releaseHeld a)
  | performs (a : Access) (rest : List HostMove) (hs : s.stalled = none) (hi : s.inbox = .access a :: rest)
      (hm : s.mustStall a = false) (ht : t = (s.withInbox rest).perform a)
  | resets (during : Option Access) (rest : List HostMove) (hi : s.inbox = .rst during :: rest)
      (ht : t = (s.withInbox rest).hardReset during)
  | passes (h : OnlyTimePasses s t)

theorem mustStall_opram {s : State} {a : Access} (h : s.mustStall a = true) : windowTarget a.offset = .opram := by
  simp only [State.mustStall, Bool.and_eq_true, decide_eq_true_eq] at h
  exact h.2

theorem step_effect {s t : State} (h : step s = .next t) : StepEffect s t := by
  cases step_cases h with
  | held a hb hs ht => exact .releases a hb hs ht
  | waits hs hi hb ht => subst ht; exact .passes ⟨rfl, rfl, rfl, rfl, rfl, rfl, .inl rfl, fun _ h => .inl h⟩
  | completes w n hb hi ht =>
    obtain ⟨i, hc⟩ := Completes.completesHeld (rest := s.inbox) hb ht
    exact .completes i hc
  | lastTick w n rest hb hn hi ht => obtain ⟨i, hc⟩ := ht.completesHeld hb; exact .completes i hc
  | busyTick w n rest hb hn hi ht =>
    subst ht; exact .passes ⟨rfl, rfl, rfl, rfl, rfl, rfl, .inr ⟨w, n, hb, hn, rfl⟩, fun _ h => .inl h⟩
  | idleTime m rest hm hs hb hi ht =>
    subst ht; exact .passes ⟨rfl, rfl, rfl, rfl, rfl, rfl, .inl rfl, fun _ h => .inl h⟩
  | awaited w n rest hb hi ht => obtain ⟨i, hc⟩ := ht.completesHeld hb; exact .completes i hc
  | reset during rest hh hi ht => exact .resets during rest hi ht
  | stalls a rest hs hi hm ht =>
    subst ht
    refine .passes ⟨rfl, rfl, rfl, rfl, rfl, rfl, .inl rfl, fun b hb => .inr ?_⟩
    obtain rfl : a = b := by simpa using hb
    exact mustStall_opram hm
  | performs a rest hs hi hm ht => exact .performs a rest hs hi hm ht

/-! ### What resets and accesses leave as it is -/

@[simp] theorem State.hardReset_f (s : State) (d : Option Access) : (s.hardReset d).f = State.reset.f := by cases d <;> rfl
@[simp] theorem State.hardReset_opram (s : State) (d : Option Access) : (s.hardReset d).opram = [] := by cases d <;> rfl
@[simp] theorem State.hardReset_unit (s : State) (d : Option Access) : (s.hardReset d).unit = .idle := by cases d <;> rfl
@[simp] theorem State.hardReset_done (s : State) (d : Option Access) : (s.hardReset d).done = false := by cases d <;> rfl
@[simp] theorem State.hardReset_stalled (s : State) (d : Option Access) : (s.hardReset d).stalled = s.stalled := by
  cases d <;> rfl
@[simp] theorem State.hardReset_inbox (s : State) (d : Option Access) : (s.hardReset d).inbox = s.inbox := by cases d <;> rfl

/-- A CMD write, whatever its outcome, leaves the data and all that is outside the unit and the status bits. -/
theorem onCmdWrite_frame (w : Word) (s : State) :
    (s.onCmdWrite w).f = s.f ∧ (s.onCmdWrite w).opram = s.opram ∧ (s.onCmdWrite w).stalled = s.stalled ∧
      (s.onCmdWrite w).inbox = s.inbox := by
  cases onCmdWrite_cases w s with
  | discarded he ht => rw [ht]; exact ⟨rfl, rfl, rfl, rfl⟩
  | refusedBusy v n he hu ht => rw [ht]; exact ⟨rfl, rfl, rfl, rfl⟩
  | refused e he hu hd ht => rw [ht]; exact ⟨rfl, rfl, rfl, rfl⟩
  | accepted i he hu hd ht => rw [ht]; exact ⟨rfl, rfl, rfl, rfl⟩

@[simp] theorem State.onCmdWrite_f (s : State) (w : Word) : (s.onCmdWrite w).f = s.f := (onCmdWrite_frame w s).1
@[simp] theorem State.onCmdWrite_opram (s : State) (w : Word) : (s.onCmdWrite w).opram = s.opram :=
  (onCmdWrite_frame w s).2.1
@[simp] theorem State.onCmdWrite_stalled (s : State) (w : Word) : (s.onCmdWrite w).stalled = s.stalled :=
  (onCmdWrite_frame w s).2.2.1
@[simp] theorem State.onCmdWrite_inbox (s : State) (w : Word) : (s.onCmdWrite w).inbox = s.inbox :=
  (onCmdWrite_frame w s).2.2.2

@[simp] theorem State.writeCtrl_stalled (s : State) (w : Word) : (s.writeCtrl w).stalled = s.stalled := by
  unfold State.writeCtrl; split <;> rfl
@[simp] theorem State.writeCtrl_inbox (s : State) (w : Word) : (s.writeCtrl w).inbox = s.inbox := by
  unfold State.writeCtrl; split <;> rfl

@[simp] theorem State.perform_inbox (s : State) (a : Access) : (s.perform a).inbox = s.inbox := by
  cases perform_cases a s with
  | answers r ht => rw [ht]; rfl
  | stores w hk ho hal ht => rw [ht]; rfl
  | command w ha ht => rw [ht]; simp
  | status w ha ht => rw [ht]; simp
  | control w ha ht => rw [ht]; simp

@[simp] theorem State.perform_stalled (s : State) (a : Access) : (s.perform a).stalled = s.stalled := by
  cases perform_cases a s with
  | answers r ht => rw [ht]; rfl
  | stores w hk ho hal ht => rw [ht]; rfl
  | command w ha ht => rw [ht]; simp
  | status w ha ht => rw [ht]; simp
  | control w ha ht => rw [ht]; simp

/-- What the completion of a held OPRAM access leaves: the registers, the unit and the status bits. -/
theorem releaseHeld_frame {s : State} {a : Access} (ho : windowTarget a.offset = .opram) :
    (s.releaseHeld a).f = s.f ∧ (s.releaseHeld a).unit = s.unit ∧ (s.releaseHeld a).done = s.done ∧
      (s.releaseHeld a).err = s.err := by
  unfold State.releaseHeld
  obtain ⟨r, ht⟩ | ⟨w, -, -, ht⟩ := perform_opram ho (s.withStalled none)
  · rw [ht]; exact ⟨rfl, rfl, rfl, rfl⟩
  · rw [ht]; exact ⟨rfl, rfl, rfl, rfl⟩

end Sys2Proof.Machine
end

section
/-! SUPPORT. The invariant, one operation at a time, and O27: every step keeps it. -/

namespace Sys2Proof.Machine

open Sys2Proof Sys2Proof.Spec

theorem one_le_latencyOf (i : Instr) : 1 ≤ latencyOf i := by
  cases i <;> exact Nat.le_add_left _ _

/-- What the invariant says of the unit: in BUSY, DONE is 0 and an accepted command is held with 1 to LAT_op cycles to go
(R25, R32). -/
def UnitOk (s : State) : Prop :=
  ∀ w n, s.unit = .busy w n → s.done = false ∧ ∃ i, decode w = .ok i ∧ 1 ≤ n ∧ n ≤ latencyOf i

theorem UnitOk.of_idle {s : State} (h : s.unit = .idle) : UnitOk s := fun w n hb => by rw [h] at hb; cases hb

section
variable {s t : State}

theorem Inv.unitOk (h : Inv s) : UnitOk s :=
  fun w n hb => ⟨h.busy_not_done (busy_of_busy hb), h.holds_command w n hb⟩

/-- A state with the error record of a state that has the invariant: the other parts are to be checked. -/
theorem Inv.of_same_record (h : Inv s) (hm : t.opram.wf = true) (hu : UnitOk t) (he : t.err = s.err)
    (hc : t.errCause = s.errCause) (hw : t.errCmd = s.errCmd)
    (hs : ∀ a, t.stalled = some a → windowTarget a.offset = .opram) : Inv t where
  opram_wf := hm
  holds_command w n hb := (hu w n hb).2
  busy_not_done hb := by
    obtain ⟨w, n, hb⟩ := busy_true_iff.1 hb
    exact (hu w n hb).1
  no_error_no_record := by rw [he, hc, hw]; exact h.no_error_no_record
  error_has_cause := by rw [he, hc]; exact h.error_has_cause
  cause_describes_word := by rw [hc, hw]; exact h.cause_describes_word
  holds_opram_access := hs

theorem Inv.withInbox (h : Inv s) (moves : List HostMove) : Inv (s.withInbox moves) :=
  h.of_same_record h.opram_wf h.unitOk rfl rfl rfl h.holds_opram_access

theorem Inv.respond (h : Inv s) (r : Response) : Inv (s.respond r) :=
  h.of_same_record h.opram_wf h.unitOk rfl rfl rfl h.holds_opram_access

theorem Inv.withEnables (h : Inv s) (d e : Bool) : Inv (s.withEnables d e) :=
  h.of_same_record h.opram_wf h.unitOk rfl rfl rfl h.holds_opram_access

theorem Inv.withOpram (h : Inv s) {m : Memory} (hm : m.wf = true) : Inv (s.withOpram m) :=
  h.of_same_record hm h.unitOk rfl rfl rfl h.holds_opram_access

theorem Inv.withStalled_none (h : Inv s) : Inv (s.withStalled none) :=
  h.of_same_record h.opram_wf h.unitOk rfl rfl rfl fun _ ha => by cases ha

theorem Inv.withDone_false (h : Inv s) : Inv (s.withDone false) :=
  h.of_same_record h.opram_wf (fun w n hb => ⟨rfl, (h.unitOk w n hb).2⟩) rfl rfl rfl h.holds_opram_access

theorem Inv.clearError (h : Inv s) : Inv s.clearError where
  opram_wf := h.opram_wf
  holds_command := h.holds_command
  busy_not_done := h.busy_not_done
  no_error_no_record _ := ⟨rfl, rfl⟩
  error_has_cause he := by cases he
  cause_describes_word := by simp
  holds_opram_access := h.holds_opram_access

/-- An error is recorded: CMD_BUSY, or the decoder's answer for the word (R171). -/
theorem Inv.recordError (h : Inv s) {e : CommandError} {w : Word} (hd : e = .cmdBusy ∨ decode w = .error e) :
    Inv (s.recordError e w) where
  opram_wf := h.opram_wf
  holds_command := h.holds_command
  busy_not_done := h.busy_not_done
  no_error_no_record he := by cases he
  error_has_cause _ := by cases e <;> simp [CommandError.code]
  cause_describes_word := by
    obtain rfl | hd := hd
    · simp [CommandError.code]
    · cases e <;> simp [CommandError.code, hd]
  holds_opram_access := h.holds_opram_access

theorem Inv.resetBlock (h : Inv s) : Inv s.resetBlock :=
  h.clearError.of_same_record rfl (.of_idle rfl) rfl rfl rfl h.holds_opram_access

theorem Inv.hardReset (h : Inv s) (during : Option Access) : Inv (s.hardReset during) := by
  cases during with
  | none => exact h.resetBlock
  | some a => exact h.clearError.of_same_record rfl (.of_idle rfl) rfl rfl rfl h.holds_opram_access

theorem Inv.onCmdWrite (h : Inv s) (w : Word) : Inv (s.onCmdWrite w) := by
  cases onCmdWrite_cases w s with
  | discarded he ht => rwa [ht]
  | refusedBusy v n he hu ht => rw [ht]; exact h.recordError (.inl rfl)
  | refused e he hu hd ht => rw [ht]; exact h.withDone_false.recordError (.inr hd)
  | accepted i he hu hd ht =>
    rw [ht]
    refine h.of_same_record h.opram_wf (fun v n hb => ?_) rfl rfl rfl h.holds_opram_access
    obtain ⟨rfl, rfl⟩ : w = v ∧ latencyOf i = n := by simpa using hb
    exact ⟨rfl, i, hd, one_le_latencyOf i, le_rfl⟩

theorem Inv.writeStatus (h : Inv s) (w : Word) : Inv (s.writeStatus w) := by
  unfold State.writeStatus
  have h1 : Inv (if w[1] then s.withDone false else s) := by
    split
    · exact h.withDone_false
    · exact h
  dsimp only
  split
  · exact h1.clearError
  · exact h1

theorem Inv.writeCtrl (h : Inv s) (w : Word) : Inv (s.writeCtrl w) := by
  unfold State.writeCtrl
  split
  · exact h.resetBlock
  · exact h.withEnables _ _

/-- An access, whatever it is, keeps the invariant. -/
theorem Inv.perform (h : Inv s) (a : Access) : Inv (s.perform a) := by
  cases perform_cases a s with
  | answers r ht => rw [ht]; exact h.respond r
  | stores w hk ho hal ht =>
    rw [ht]
    exact (h.withOpram (Memory.write_wf h.opram_wf (by show _ ≤ 512; omega) _)).respond _
  | command w ha ht => rw [ht]; exact (h.onCmdWrite w).respond _
  | status w ha ht => rw [ht]; exact (h.writeStatus w).respond _
  | control w ha ht => rw [ht]; exact (h.writeCtrl w).respond _

theorem Inv.completes (h : Inv s) {w : Word} (hc : Completes w s t) : Inv t := by
  obtain ⟨hu, -, he, hcause, hcmd, -, -, hs, -, -, -, hm⟩ := hc.control
  exact h.of_same_record (hm h.opram_wf) (.of_idle hu) he hcause hcmd (by rw [hs]; exact h.holds_opram_access)

theorem Inv.passes (h : Inv s) (ht : OnlyTimePasses s t) : Inv t := by
  refine h.of_same_record (by rw [ht.opram]; exact h.opram_wf) (fun w n hb => ?_) ht.err ht.errCause ht.errCmd
    fun a ha => (ht.stalled a ha).elim (h.holds_opram_access a) id
  rw [ht.done]
  obtain hu | ⟨v, k, hv, hk, hu⟩ := ht.unit
  · exact h.unitOk w n (hu ▸ hb)
  · obtain ⟨rfl, rfl⟩ : v = w ∧ k - 1 = n := by simpa [hu] using hb
    obtain ⟨hdone, i, hd, -, hle⟩ := h.unitOk v k hv
    exact ⟨hdone, i, hd, by omega, by omega⟩

theorem Inv.step_next (h : Inv s) (hst : step s = .next t) : Inv t := by
  cases step_effect hst with
  | completes i hc =>
    obtain ⟨w, n, -, hc⟩ := hc.completes
    exact (h.withInbox _).completes hc
  | releases a hu hs ht => rw [ht]; exact h.withStalled_none.perform a
  | performs a rest hs hi hm ht => rw [ht]; exact (h.withInbox rest).perform a
  | resets during rest hi ht => rw [ht]; exact (h.withInbox rest).hardReset during
  | passes ht => exact h.passes ht

end

end Sys2Proof.Machine

namespace Sys2Proof.Spec

open Sys2Proof Sys2Proof.Machine

/-- Settles O27: the case split is over what a step does to the block (`step_effect`). -/
theorem stepKeepsTheInvariant : Obligations.StepKeepsTheInvariant := fun _ _ h hst => h.step_next hst

end Sys2Proof.Spec
end

section
/-! SUPPORT. The field registers are invisible to everything but Exec (spec/10_state.md R22), and O39. -/

namespace Sys2Proof.Machine

open Sys2Proof

/-- The state with its register file replaced. -/
def State.withRegs (g : Vector FieldValue 16) (s : State) : State := { s with f := g }

section
variable (g : Vector FieldValue 16) (s : State)

theorem State.onCmdWrite_withRegs (w : Word) : (s.withRegs g).onCmdWrite w = (s.onCmdWrite w).withRegs g := by
  simp only [State.onCmdWrite, show (s.withRegs g).err = s.err from rfl, show (s.withRegs g).unit = s.unit from rfl]
  split
  · rfl
  · split
    · rfl
    · split <;> rfl

theorem State.writeStatus_withRegs (w : Word) : (s.withRegs g).writeStatus w = (s.writeStatus w).withRegs g := by
  simp only [State.writeStatus]
  cases w[1] <;> cases w[2] <;> rfl

/-- A CTRL write does not see the registers: it keeps them, or resets them. -/
theorem State.writeCtrl_withRegs (w : Word) : ∃ g', (s.withRegs g).writeCtrl w = (s.writeCtrl w).withRegs g' := by
  cases h : w[2] with
  | true => rw [State.writeCtrl_srst _ _ h, State.writeCtrl_srst _ _ h]; exact ⟨State.reset.f, rfl⟩
  | false => rw [State.writeCtrl_enables _ _ h, State.writeCtrl_enables _ _ h]; exact ⟨g, rfl⟩

theorem State.windowWrite_withRegs (o : Offset) (w : Word) :
    ∃ g', (s.withRegs g).windowWrite o w = (s.windowWrite o w).withRegs g' := by
  unfold State.windowWrite
  cases windowTarget o with
  | cmd => exact ⟨g, State.onCmdWrite_withRegs g s w⟩
  | status => exact ⟨g, State.writeStatus_withRegs g s w⟩
  | ctrl => exact State.writeCtrl_withRegs g s w
  | _ => exact ⟨g, rfl⟩

/-- No access answers with, or depends on, a field register. -/
theorem State.perform_withRegs (a : Access) : ∃ g', (s.withRegs g).perform a = (s.perform a).withRegs g' := by
  unfold State.perform
  split
  · cases a.kind with
    | read => exact ⟨g, rfl⟩
    | write w =>
      obtain ⟨g', h⟩ := State.windowWrite_withRegs g s a.offset w
      exact ⟨g', congrArg (State.respond ⟨none, false⟩) h⟩
  · exact ⟨g, rfl⟩

theorem State.hardReset_withRegs (during : Option Access) :
    (s.withRegs g).hardReset during = (s.hardReset during).withRegs State.reset.f := by
  cases during <;> rfl

/-- A command other than FST moves register values into registers only. -/
theorem exec_withRegs {i : Instr} {t : State} (hi : ∀ k a, i ≠ .fst k a) (h : exec i s = .next t) :
    ∃ g', exec i (s.withRegs g) = .next (t.withRegs g') := by
  cases i with
  | fst k a => exact absurd rfl (hi k a)
  | fcswap a b c =>
    rw [exec_fcswap] at h ⊢
    cases h
    cases c <;> exact ⟨_, rfl⟩
  | _ => cases h; exact ⟨_, rfl⟩

theorem Completes.withRegs {w : Word} {t : State} (hw : ∀ k a, decode w ≠ .ok (.fst k a)) (h : Completes w s t) :
    ∃ g', Completes w (s.withRegs g) (t.withRegs g') := by
  obtain ⟨i, u, hd, he, rfl⟩ := h
  obtain ⟨g', he'⟩ := exec_withRegs g s (fun k a hi => hw k a (hi ▸ hd)) he
  exact ⟨g', i, _, hd, he', rfl⟩

/-- A step that completes no FST is the same way of stepping whatever the registers hold. -/
theorem StepCase.withRegs {t : State} (hw : ∀ w n k a, s.unit = .busy w n → decode w ≠ .ok (.fst k a))
    (h : StepCase s t) : ∃ g', StepCase (s.withRegs g) (t.withRegs g') := by
  cases h with
  | held a hb hs ht =>
    obtain ⟨g', h⟩ := State.perform_withRegs g (s.withStalled none) a
    exact ⟨g', .held a hb hs (by rw [ht]; exact h.symm)⟩
  | waits hs hi hb ht => exact ⟨g, .waits hs hi hb (by rw [ht])⟩
  | completes w n hb hi ht =>
    obtain ⟨g', h⟩ := ht.withRegs g s (fun k a => hw w n k a hb)
    exact ⟨g', .completes w n hb hi h⟩
  | lastTick w n rest hb hn hi ht =>
    obtain ⟨g', h⟩ := ht.withRegs g _ (fun k a => hw w n k a hb)
    exact ⟨g', .lastTick w n rest hb hn hi h⟩
  | busyTick w n rest hb hn hi ht => exact ⟨g, .busyTick w n rest hb hn hi (by rw [ht]; rfl)⟩
  | idleTime m rest hm hs hb hi ht => exact ⟨g, .idleTime m rest hm hs hb hi (by rw [ht]; rfl)⟩
  | awaited w n rest hb hi ht =>
    obtain ⟨g', h⟩ := ht.withRegs g _ (fun k a => hw w n k a hb)
    exact ⟨g', .awaited w n rest hb hi h⟩
  | reset during rest hh hi ht =>
    exact ⟨State.reset.f, .reset during rest hh hi (by rw [ht]; exact (State.hardReset_withRegs g _ during).symm)⟩
  | stalls a rest hs hi hm ht => exact ⟨g, .stalls a rest hs hi hm (by rw [ht]; rfl)⟩
  | performs a rest hs hi hm ht =>
    obtain ⟨g', h⟩ := State.perform_withRegs g (s.withInbox rest) a
    exact ⟨g', .performs a rest hs hi hm (by rw [ht]; exact h.symm)⟩

end

end Sys2Proof.Machine

namespace Sys2Proof.Spec

open Sys2Proof Sys2Proof.Machine

/-- Settles O39: each way of stepping is the same way with the registers replaced (`StepCase.withRegs`). -/
theorem hostCannotReadFieldRegisters : Obligations.HostCannotReadFieldRegisters := by
  intro s t g hw hst
  obtain ⟨g', h⟩ := (step_cases hst).withRegs g s hw
  exact ⟨g', h.step_eq⟩

end Sys2Proof.Spec
end

section
/-! SUPPORT. Progress and the end of runs: O28 and O29. -/

namespace Sys2Proof.Machine

open Sys2Proof Sys2Proof.Spec

section
variable {s t : State}

/-- The word a BUSY unit holds completes, whatever has arrived meanwhile. -/
theorem Inv.can_complete (h : Inv s) {w : Word} {n : Nat} (hb : s.unit = .busy w n) (u : State) :
    ∃ t, Completes w u t := by
  obtain ⟨i, hd, -⟩ := h.holds_command w n hb
  obtain ⟨t, ht⟩ := complete_of_decode hd u
  exact ⟨t, complete_next.1 ht⟩

theorem stepCase_of_idle (hu : s.unit = .idle) : ∃ t, StepCase s t := by
  cases hs : s.stalled with
  | some a => exact ⟨_, .held a hu hs rfl⟩
  | none =>
    cases hi : s.inbox with
    | nil => exact ⟨_, .waits hs hi hu rfl⟩
    | cons m rest =>
      cases m with
      | tick => exact ⟨_, .idleTime .tick rest (.inl rfl) hs hu hi rfl⟩
      | awaitIdle => exact ⟨_, .idleTime .awaitIdle rest (.inr rfl) hs hu hi rfl⟩
      | rst d => exact ⟨_, .reset d rest (heldAccess_of_none hs) hi rfl⟩
      | access a => exact ⟨_, .performs a rest hs hi (mustStall_false (.inl hu)) rfl⟩

theorem Inv.stepCase_of_busy (h : Inv s) {w : Word} {n : Nat} (hb : s.unit = .busy w n) : ∃ t, StepCase s t := by
  cases hi : s.inbox with
  | nil =>
    obtain ⟨t, ht⟩ := h.can_complete hb s
    exact ⟨t, .completes w n hb (.inl hi) ht⟩
  | cons m rest =>
    cases m with
    | tick =>
      by_cases hn : n ≤ 1
      · obtain ⟨t, ht⟩ := h.can_complete hb (s.withInbox rest)
        exact ⟨t, .lastTick w n rest hb hn hi ht⟩
      · exact ⟨_, .busyTick w n rest hb (by omega) hi rfl⟩
    | awaitIdle =>
      obtain ⟨t, ht⟩ := h.can_complete hb (s.withInbox rest)
      exact ⟨t, .awaited w n rest hb hi ht⟩
    | rst d => exact ⟨_, .reset d rest (heldAccess_busy hb) hi rfl⟩
    | access a =>
      cases hs : s.stalled with
      | some b =>
        obtain ⟨t, ht⟩ := h.can_complete hb s
        exact ⟨t, .completes w n hb (.inr ⟨b, a, rest, hs, hi⟩) ht⟩
      | none =>
        cases hm : s.mustStall a with
        | true => exact ⟨_, .stalls a rest hs hi hm rfl⟩
        | false => exact ⟨_, .performs a rest hs hi hm rfl⟩

theorem Inv.progress (h : Inv s) : ∃ t, step s = .next t := by
  obtain ⟨t, ht⟩ : ∃ t, StepCase s t := by
    cases hu : s.unit with
    | idle => exact stepCase_of_idle hu
    | busy w n => exact h.stepCase_of_busy hu
  exact ⟨t, ht.step_eq⟩

/-! ### The end of a run (spec/70_reset_and_hazards.md R223) -/

/-- A bound on the steps to the end of the run: two for each move to come, since an access may come to be held or start a
command, one for a held access and one for a held command. -/
def stepsLeft (s : State) : Nat := 2 * s.inbox.length + s.stalled.isSome.toNat + s.busy.toNat

theorem stepsLeft_le (s : State) : stepsLeft s ≤ 2 * s.inbox.length + 2 := by
  have h1 := s.stalled.isSome.toNat_le
  have h2 := s.busy.toNat_le
  simp only [stepsLeft]
  omega

theorem endOfRun_of_stepsLeft_zero (h : stepsLeft s = 0) : EndOfRun s := by
  simpa [stepsLeft, EndOfRun, and_assoc] using h

/-- A move that reaches the block changes the held access or the unit's mode, not both. -/
theorem stepsLeft_lt_of_move {m : HostMove} (hi : s.inbox = m :: t.inbox) (h : t.stalled = s.stalled ∨ t.busy = s.busy) :
    stepsLeft t < stepsLeft s := by
  have h1 := t.stalled.isSome.toNat_le
  have h2 := t.busy.toNat_le
  simp only [stepsLeft, hi, List.length_cons]
  obtain h | h := h
  · rw [h]; omega
  · rw [h]; omega

/-- Every step that is not at the end of the run brings it nearer. -/
theorem Inv.stepsLeft_lt (h : Inv s) (hst : step s = .next t) : EndOfRun s ∨ stepsLeft t < stepsLeft s := by
  cases step_cases hst with
  | held a hb hs ht =>
    obtain ⟨-, hu, -⟩ := releaseHeld_frame (s := s) (h.holds_opram_access a hs)
    have hi : (s.releaseHeld a).inbox = s.inbox := by simp [State.releaseHeld]
    have hn : (s.releaseHeld a).stalled = none := by simp [State.releaseHeld]
    rw [ht]
    simp [stepsLeft, hi, hn, hs, busy_of_idle hb, busy_of_idle (hu.trans hb)]
  | waits hs hi hb ht => exact .inl ⟨hi, hs, busy_of_idle hb⟩
  | completes w n hb hi ht =>
    obtain ⟨hu, -, -, -, -, -, -, hs, hi, -⟩ := ht.control
    simp [stepsLeft, hs, hi, busy_of_idle hu, busy_of_busy hb]
  | lastTick w n rest hb hn hi ht =>
    obtain ⟨-, -, -, -, -, -, -, hs, hr, -⟩ := ht.control
    exact .inr (stepsLeft_lt_of_move (hi.trans (by rw [hr]; rfl)) (.inl hs))
  | busyTick w n rest hb hn hi ht => subst ht; exact .inr (stepsLeft_lt_of_move hi (.inl rfl))
  | idleTime m rest hm hs hb hi ht => subst ht; exact .inr (stepsLeft_lt_of_move hi (.inl rfl))
  | awaited w n rest hb hi ht =>
    obtain ⟨-, -, -, -, -, -, -, hs, hr, -⟩ := ht.control
    exact .inr (stepsLeft_lt_of_move (hi.trans (by rw [hr]; rfl)) (.inl hs))
  | reset during rest hh hi ht => subst ht; exact .inr (stepsLeft_lt_of_move (by simpa using hi) (.inl (by simp)))
  | stalls a rest hs hi hm ht => subst ht; exact .inr (stepsLeft_lt_of_move hi (.inr rfl))
  | performs a rest hs hi hm ht => subst ht; exact .inr (stepsLeft_lt_of_move (by simpa using hi) (.inl (by simp)))

theorem Inv.run_ends : ∀ (n : Nat) (s : State), Inv s → stepsLeft s ≤ n →
    ∃ k ≤ n, ∃ t, runFor k s = .next t ∧ EndOfRun t
  | 0, s, _, hn => ⟨0, le_rfl, s, runFor_zero s, endOfRun_of_stepsLeft_zero (Nat.le_zero.1 hn)⟩
  | n + 1, s, h, hn => by
    obtain ⟨u, hu⟩ := h.progress
    obtain hend | hlt := h.stepsLeft_lt hu
    · exact ⟨0, Nat.zero_le _, s, runFor_zero s, hend⟩
    · obtain ⟨k, hk, t, ht, hend⟩ := Inv.run_ends n u (h.step_next hu) (by omega)
      exact ⟨k + 1, Nat.succ_le_succ hk, t, (runFor_succ hu).trans ht, hend⟩

end
end Sys2Proof.Machine

namespace Sys2Proof.Spec

open Sys2Proof Sys2Proof.Machine

/-- Settles O28: from a state with the invariant a case of `StepCase` applies. -/
theorem stepNeverStops : Obligations.StepNeverStops := fun _ h => h.progress

/-- Settles O29, by induction on a bound on the steps left: 2n + 2 of them are enough. -/
theorem everyRunEnds : Obligations.EveryRunEnds := by
  intro s h
  obtain ⟨k, hk, t, ht, hend⟩ := Inv.run_ends _ s h le_rfl
  have hle := stepsLeft_le s
  exact ⟨k, by omega, t, ht, hend⟩

end Sys2Proof.Spec
end

section
/-! SUPPORT. What can set and clear DONE, start a command, and write the registers and OPRAM: O34, O35, O36, O38. -/

namespace Sys2Proof.Machine

open Sys2Proof Sys2Proof.Spec

section
variable {s : State} {a : Access}

/-! ### What one access can change -/

/-- A CMD write does not set DONE. -/
theorem done_of_onCmdWrite_done {w : Word} (h : (s.onCmdWrite w).done = true) : s.done = true := by
  cases onCmdWrite_cases w s with
  | discarded he ht => rwa [ht] at h
  | refusedBusy v n he hu ht => rwa [ht] at h
  | refused e he hu hd ht => rw [ht] at h; cases h
  | accepted i he hu hd ht => rw [ht] at h; cases h

/-- No access sets DONE. -/
theorem done_of_perform_done (h : (s.perform a).done = true) : s.done = true := by
  cases perform_cases a s with
  | answers r ht => rwa [ht] at h
  | stores w hk ho hal ht => rwa [ht] at h
  | command w ha ht => rw [ht] at h; exact done_of_onCmdWrite_done h
  | status w ha ht =>
    rw [ht, State.respond_done, State.writeStatus_done, Bool.and_eq_true] at h
    exact h.1
  | control w ha ht =>
    rw [ht] at h
    cases hw : w[2] with
    | true => rw [State.writeCtrl_srst _ _ hw] at h; cases h
    | false => rwa [State.writeCtrl_enables _ _ hw] at h

/-- A CMD write that clears DONE was evaluated in IDLE with no error recorded. -/
theorem idle_of_onCmdWrite_clears_done {w : Word} (hs : s.done = true) (h : (s.onCmdWrite w).done = false) :
    s.unit = .idle ∧ s.err = false := by
  cases onCmdWrite_cases w s with
  | discarded he ht => rw [ht, hs] at h; cases h
  | refusedBusy v n he hu ht => rw [ht, State.recordError_done, hs] at h; cases h
  | refused e he hu hd ht => exact ⟨hu, he⟩
  | accepted i he hu hd ht => exact ⟨hu, he⟩

/-- The accesses that clear DONE (R32, R181). -/
theorem perform_clears_done (hs : s.done = true) (h : (s.perform a).done = false) :
    (∃ w : Word, a = ⟨0x204, 4, .write w⟩ ∧ w[1] = true) ∨
      (∃ w : Word, a = ⟨0x200, 4, .write w⟩ ∧ s.unit = .idle ∧ s.err = false) ∨
      ∃ w : Word, a = ⟨0x210, 4, .write w⟩ ∧ w[2] = true := by
  cases perform_cases a s with
  | answers r ht => rw [ht, State.respond_done, hs] at h; cases h
  | stores w hk ho hal ht => rw [ht, State.respond_done, State.withOpram_done, hs] at h; cases h
  | command w ha ht =>
    rw [ht] at h
    exact .inr (.inl ⟨w, ha, idle_of_onCmdWrite_clears_done hs h⟩)
  | status w ha ht =>
    rw [ht, State.respond_done, State.writeStatus_done, hs] at h
    exact .inl ⟨w, ha, by simpa using h⟩
  | control w ha ht =>
    cases hw : w[2] with
    | true => exact .inr (.inr ⟨w, ha, hw⟩)
    | false => rw [ht, State.writeCtrl_enables _ _ hw, State.respond_done, State.withEnables_done, hs] at h; cases h

/-- The only access that starts a command: an accepted CMD write (R25). -/
theorem perform_starts_command {w : Word} {n : Nat} (hu : s.unit = .idle) (h : (s.perform a).unit = .busy w n) :
    a = ⟨0x200, 4, .write w⟩ ∧ s.err = false ∧ ∃ i, decode w = .ok i ∧ n = latencyOf i := by
  cases perform_cases a s with
  | answers r ht => rw [ht, State.respond_unit, hu] at h; cases h
  | stores v hk ho hal ht => rw [ht, State.respond_unit, State.withOpram_unit, hu] at h; cases h
  | status v ha ht => rw [ht, State.respond_unit, State.writeStatus_unit, hu] at h; cases h
  | control v ha ht =>
    rw [ht, State.respond_unit] at h
    cases hw : v[2] with
    | true => rw [State.writeCtrl_srst _ _ hw] at h; cases h
    | false => rw [State.writeCtrl_enables _ _ hw, State.withEnables_unit, hu] at h; cases h
  | command v ha ht =>
    rw [ht, State.respond_unit] at h
    cases onCmdWrite_cases v s with
    | discarded he hv => rw [hv, hu] at h; cases h
    | refusedBusy v' n' he hb hv => rw [hu] at hb; cases hb
    | refused e he _ hd hv => rw [hv, State.recordError_unit, State.withDone_unit, hu] at h; cases h
    | accepted i he _ hd hv =>
      obtain ⟨rfl, rfl⟩ : v = w ∧ latencyOf i = n := by rw [hv] at h; simpa using h
      exact ⟨ha, he, i, hd, rfl⟩

/-- An access performed while the unit is BUSY leaves the data and the held command, unless it resets the block (R26). -/
theorem perform_while_busy {w : Word} {n : Nat} (hb : s.unit = .busy w n) (hm : s.mustStall a = false) :
    (s.perform a).unit = .idle ∨
      (s.perform a).f = s.f ∧ (s.perform a).opram = s.opram ∧ (s.perform a).unit = s.unit := by
  cases perform_cases a s with
  | answers r ht => rw [ht]; exact .inr ⟨rfl, rfl, rfl⟩
  | stores v hk ho hal ht => simp [State.mustStall, busy_of_busy hb, windowTarget_opram.2 ho] at hm
  | status v ha ht => rw [ht]; exact .inr ⟨by simp, by simp, by simp⟩
  | control v ha ht =>
    cases hw : v[2] with
    | true => rw [ht, State.writeCtrl_srst _ _ hw]; exact .inl rfl
    | false => rw [ht, State.writeCtrl_enables _ _ hw]; exact .inr ⟨rfl, rfl, rfl⟩
  | command v ha ht =>
    rw [ht]
    refine .inr ⟨by simp, by simp, ?_⟩
    cases onCmdWrite_cases v s with
    | discarded he hv => rw [hv]; rfl
    | refusedBusy v' n' he _ hv => rw [hv]; rfl
    | refused e he hu hd hv => rw [hb] at hu; cases hu
    | accepted i he hu hd hv => rw [hb] at hu; cases hu

/-- The only access that changes a field register: a CTRL write with SRST (R22, R201). -/
theorem perform_changes_f (h : (s.perform a).f ≠ s.f) :
    ∃ w : Word, a = ⟨0x210, 4, .write w⟩ ∧ w[2] = true ∧ (s.perform a).f = State.reset.f := by
  cases perform_cases a s with
  | answers r ht => rw [ht] at h; exact absurd rfl h
  | stores w hk ho hal ht => rw [ht] at h; exact absurd rfl h
  | command w ha ht => rw [ht] at h; exact absurd (State.onCmdWrite_f s w) h
  | status w ha ht => rw [ht] at h; exact absurd (State.writeStatus_f s w) h
  | control w ha ht =>
    cases hw : w[2] with
    | true => exact ⟨w, ha, hw, by rw [ht, State.writeCtrl_srst _ _ hw]; rfl⟩
    | false => rw [ht, State.writeCtrl_enables _ _ hw] at h; exact absurd rfl h

/-- The accesses that change OPRAM: a legal write to an OPRAM offset, and a CTRL write with SRST (R56, R59, R201). -/
theorem perform_changes_opram (h : (s.perform a).opram ≠ s.opram) :
    (∃ w, a.kind = .write w ∧ a.legal = true ∧ a.offset.toNat < 0x200 ∧
      (s.perform a).opram = s.opram.write a.offset.toNat 4 w.toNat) ∨
      ∃ w : Word, a = ⟨0x210, 4, .write w⟩ ∧ w[2] = true ∧ (s.perform a).opram = State.reset.opram := by
  have hl : a.legal = true := by
    by_contra hl
    rw [State.perform, if_neg hl] at h
    exact h rfl
  cases perform_cases a s with
  | answers r ht => rw [ht] at h; exact absurd rfl h
  | stores w hk ho hal ht => exact .inl ⟨w, hk, hl, ho, by rw [ht]; rfl⟩
  | command w ha ht => rw [ht] at h; exact absurd (State.onCmdWrite_opram s w) h
  | status w ha ht => rw [ht] at h; exact absurd (State.writeStatus_opram s w) h
  | control w ha ht =>
    cases hw : w[2] with
    | true => exact .inr ⟨w, ha, hw, by rw [ht, State.writeCtrl_srst _ _ hw]; rfl⟩
    | false => rw [ht, State.writeCtrl_enables _ _ hw] at h; exact absurd rfl h

theorem idle_of_not_mustStall (hm : s.mustStall a = false) (ho : windowTarget a.offset = .opram) : s.unit = .idle :=
  busy_false_iff.1 (by simpa [State.mustStall, ho] using hm)

end

end Sys2Proof.Machine

namespace Sys2Proof.Spec

open Sys2Proof Sys2Proof.Machine

section
variable {s t : State}

theorem done_set_by_completion (h : Inv s) (hst : step s = .next t) (hs : s.done = false) (ht : t.done = true) :
    ∃ i, CompletesHeld s t i := by
  cases step_effect hst with
  | completes i hc => exact ⟨i, hc⟩
  | releases a hu hst ht' =>
    obtain ⟨-, -, hd, -⟩ := releaseHeld_frame (s := s) (h.holds_opram_access a hst)
    rw [ht', hd, hs] at ht; cases ht
  | performs a rest hst hi hm ht' =>
    rw [ht'] at ht
    have hd : s.done = true := done_of_perform_done (s := s.withInbox rest) ht
    rw [hs] at hd; cases hd
  | resets during rest hi ht' => rw [ht', State.hardReset_done] at ht; cases ht
  | passes hp => rw [hp.done, hs] at ht; cases ht

theorem done_cleared_by (h : Inv s) (hst : step s = .next t) (hs : s.done = true) (ht : t.done = false) :
    ∃ m rest, s.inbox = m :: rest ∧ ((∃ w : Word, m = writeTo 0x204 w ∧ w[1] = true) ∨
      (∃ w : Word, m = writeTo 0x200 w ∧ s.unit = .idle ∧ s.err = false) ∨
      (∃ w : Word, m = writeTo 0x210 w ∧ w[2] = true) ∨ ∃ during, m = .rst during) := by
  cases step_effect hst with
  | completes i hc => rw [hc.done] at ht; cases ht
  | releases a hu hst ht' =>
    obtain ⟨-, -, hd, -⟩ := releaseHeld_frame (s := s) (h.holds_opram_access a hst)
    rw [ht', hd, hs] at ht; cases ht
  | performs a rest hst hi hm ht' =>
    rw [ht'] at ht
    refine ⟨_, rest, hi, ?_⟩
    obtain ⟨w, rfl, hw⟩ | ⟨w, rfl, hu⟩ | ⟨w, rfl, hw⟩ := perform_clears_done (s := s.withInbox rest) hs ht
    · exact .inl ⟨w, rfl, hw⟩
    · exact .inr (.inl ⟨w, rfl, hu⟩)
    · exact .inr (.inr (.inl ⟨w, rfl, hw⟩))
  | resets during rest hi ht' => exact ⟨_, rest, hi, .inr (.inr (.inr ⟨during, rfl⟩))⟩
  | passes hp => rw [hp.done, hs] at ht; cases ht

/-- A step from BUSY to BUSY keeps the data, and at most counts one cycle. -/
theorem busy_step_keeps {w w' : Word} {n n' : Nat} (hst : step s = .next t) (hb : s.unit = .busy w n)
    (hb' : t.unit = .busy w' n') : t.f = s.f ∧ t.opram = s.opram ∧ w' = w ∧ n' ≤ n := by
  cases step_effect hst with
  | completes i hc => rw [hc.unit] at hb'; cases hb'
  | releases a hu hs ht => rw [hb] at hu; cases hu
  | performs a rest hs hi hm ht =>
    subst ht
    obtain hu | ⟨hf, ho, hu⟩ := perform_while_busy (s := s.withInbox rest) hb hm
    · rw [hu] at hb'; cases hb'
    · obtain ⟨rfl, rfl⟩ : w' = w ∧ n' = n := by simpa using hb'.symm.trans (hu.trans hb)
      exact ⟨hf, ho, rfl, le_rfl⟩
  | resets during rest hi ht => rw [ht, State.hardReset_unit] at hb'; cases hb'
  | passes hp =>
    refine ⟨hp.f, hp.opram, ?_⟩
    obtain hu | ⟨v, k, hv, -, hu⟩ := hp.unit
    · obtain ⟨rfl, rfl⟩ : w' = w ∧ n' = n := by simpa using hb'.symm.trans (hu.trans hb)
      exact ⟨rfl, le_rfl⟩
    · obtain ⟨rfl, rfl⟩ : v = w ∧ k = n := by simpa using hv.symm.trans hb
      obtain ⟨rfl, rfl⟩ : w' = v ∧ n' = k - 1 := by simpa using hb'.symm.trans hu
      exact ⟨rfl, Nat.sub_le k 1⟩

theorem registers_written_by (h : Inv s) (hst : step s = .next t) (hf : t.f ≠ s.f) :
    (∃ i, CompletesHeld s t i ∧ ∀ k a, i ≠ .fst k a) ∨ (ResetArrives s ∧ t.f = State.reset.f) := by
  cases step_effect hst with
  | completes i hc => exact .inl ⟨i, hc, fun k a hi => hf (hi ▸ hc).fst_f⟩
  | releases a hu hs ht =>
    obtain ⟨hf', -⟩ := releaseHeld_frame (s := s) (h.holds_opram_access a hs)
    exact absurd (ht ▸ hf') hf
  | performs a rest hs hi hm ht =>
    subst ht
    obtain ⟨w, rfl, hw, hr⟩ := perform_changes_f (s := s.withInbox rest) hf
    exact .inr ⟨⟨_, rest, hi, .inl ⟨w, rfl, hw⟩⟩, hr⟩
  | resets during rest hi ht => exact .inr ⟨⟨_, rest, hi, .inr ⟨during, rfl⟩⟩, by rw [ht, State.hardReset_f]⟩
  | passes hp => exact absurd hp.f hf

theorem opram_written_by (h : Inv s) (hst : step s = .next t) (ho : t.opram ≠ s.opram) :
    (∃ k a, CompletesHeld s t (.fst k a)) ∨
      (∃ a w, a.kind = .write w ∧ a.legal = true ∧ a.offset.toNat < 0x200 ∧ s.unit = .idle ∧
        (s.stalled = some a ∨ s.stalled = none ∧ ∃ rest, s.inbox = .access a :: rest) ∧
        t.opram = s.opram.write a.offset.toNat 4 w.toNat) ∨
      (ResetArrives s ∧ t.opram = State.reset.opram) := by
  cases step_effect hst with
  | completes i hc =>
    by_cases hi : ∃ k a, i = .fst k a
    · obtain ⟨k, a, rfl⟩ := hi
      exact .inl ⟨k, a, hc⟩
    · exact absurd (hc.opram fun k a hk => hi ⟨k, a, hk⟩) ho
  | releases a hu hs ht =>
    subst ht
    obtain ⟨w, hk, hl, hlt, hw⟩ | ⟨w, rfl, -⟩ := perform_changes_opram (s := s.withStalled none) ho
    · exact .inr (.inl ⟨a, w, hk, hl, hlt, hu, .inl hs, hw⟩)
    · exact absurd (h.holds_opram_access _ hs) (show ¬ windowTarget (0x210 : Offset) = .opram by decide)
  | performs a rest hs hi hm ht =>
    subst ht
    obtain ⟨w, hk, hl, hlt, hw⟩ | ⟨w, rfl, hw, hr⟩ := perform_changes_opram (s := s.withInbox rest) ho
    · have hu := idle_of_not_mustStall hm (windowTarget_opram.2 hlt)
      exact .inr (.inl ⟨a, w, hk, hl, hlt, hu, .inr ⟨hs, rest, hi⟩, hw⟩)
    · exact .inr (.inr ⟨⟨_, rest, hi, .inl ⟨w, rfl, hw⟩⟩, hr⟩)
  | resets during rest hi ht =>
    exact .inr (.inr ⟨⟨_, rest, hi, .inr ⟨during, rfl⟩⟩, by rw [ht, State.hardReset_opram]; rfl⟩)
  | passes hp => exact absurd hp.opram ho

end

/-- Settles O34: no access sets DONE, and those that clear it are the three writes of `perform_clears_done`. -/
theorem doneIsSetByCompletionOnly : Obligations.DoneIsSetByCompletionOnly := by
  refine ⟨fun s t h hst hs ht => ?_, fun s t => done_cleared_by⟩
  obtain ⟨i, hc⟩ := done_set_by_completion h hst hs ht
  obtain ⟨u, hu, htu⟩ := hc.exec_eq
  obtain ⟨w, n, hb, hd, -⟩ := hc
  exact ⟨w, n, i, u, hb, hd, hu, htu⟩

/-- Settles O35: of the effects of a step only an accepted CMD write makes an IDLE unit BUSY. -/
theorem leavesIdleOnlyByAccepting : Obligations.LeavesIdleOnlyByAccepting := by
  intro s t w n h hst hu hb
  cases step_effect hst with
  | completes i hc => exact absurd hu hc.not_idle
  | releases a _ hs ht =>
    obtain ⟨-, hu', -⟩ := releaseHeld_frame (s := s) (h.holds_opram_access a hs)
    rw [ht, hu', hu] at hb; cases hb
  | performs a rest hs hi hm ht =>
    rw [ht] at hb
    obtain ⟨rfl, he, i, hd, hn⟩ := perform_starts_command (s := s.withInbox rest) hu hb
    exact ⟨rest, i, hi, he, hd, hn⟩
  | resets during rest hi ht => rw [ht, State.hardReset_unit] at hb; cases hb
  | passes hp =>
    obtain hu' | ⟨v, k, hv, -⟩ := hp.unit
    · rw [hu', hu] at hb; cases hb
    · rw [hu] at hv; cases hv

/-- Settles O36: OPRAM accesses stall, so what is performed while BUSY stores nothing. -/
theorem busyHoldsTheOperands : Obligations.BusyHoldsTheOperands := by
  intro s t w w' n n' hst hb hb'
  obtain ⟨hf, ho, hw, hn⟩ := busy_step_keeps hst hb hb'
  exact ⟨fun i => by rw [State.readF, hf]; rfl, fun a => by rw [ho], hw, hn⟩

/-- Settles O38, the registers and OPRAM apart. -/
theorem writersOfRegistersAndOpram : Obligations.WritersOfRegistersAndOpram :=
  fun _ _ h hst => ⟨registers_written_by h hst, opram_written_by h hst⟩

end Sys2Proof.Spec
end

section
/-! SUPPORT. The host window: reads and writes of the control registers (spec/10_state.md R30 to R37), O41 to O44. -/

namespace Sys2Proof.Machine

open Sys2Proof

/-! ### The words of STATUS and CTRL -/

/-- A word below `2 ^ k` has no bit from `k` on. -/
theorem ofNat_high_bits {n k i : Nat} (hn : n < 2 ^ k) (hi : k ≤ i) : (BitVec.ofNat 32 n).getLsbD i = false := by
  rw [BitVec.getLsbD_ofNat, Nat.testBit_lt_two_pow (hn.trans_le (Nat.pow_le_pow_right (by decide) hi)), Bool.and_false]

/-- The bits of STATUS (R32). -/
theorem statusWord_bits (s : State) : s.statusWord[0] = s.busy ∧ s.statusWord[1] = s.done ∧ s.statusWord[2] = s.err ∧
    ∀ i, 3 ≤ i → s.statusWord.getLsbD i = false := by
  unfold State.statusWord
  generalize s.busy = b, s.done = d, s.err = e
  refine ⟨?_, ?_, ?_, fun i hi => ofNat_high_bits ?_ hi⟩
  all_goals revert b d e; decide

/-- The bits of CTRL (R36). -/
theorem ctrlWord_bits (s : State) :
    s.ctrlWord[0] = s.ieDone ∧ s.ctrlWord[1] = s.ieErr ∧ ∀ i, 2 ≤ i → s.ctrlWord.getLsbD i = false := by
  unfold State.ctrlWord
  generalize s.ieDone = d, s.ieErr = e
  refine ⟨?_, ?_, fun i hi => ofNat_high_bits ?_ hi⟩
  all_goals revert d e; decide

/-! ### What stands at an offset -/

theorem windowWrite_status (s : State) (w : Word) : s.windowWrite 0x204 w = s.writeStatus w := rfl

theorem windowWrite_ctrl (s : State) (w : Word) : s.windowWrite 0x210 w = s.writeCtrl w := rfl

/-- A write to a read-only register or a reserved offset changes nothing (R37, R52). -/
theorem windowWrite_ignored (s : State) {o : Offset} (w : Word)
    (ho : o.toNat = 0x208 ∨ o.toNat = 0x20C ∨ o.toNat = 0x214 ∨ 0x218 ≤ o.toNat) : s.windowWrite o w = s := by
  obtain ho | ho | ho | ho := ho
  · have ht : windowTarget o = .errcause := by simp [windowTarget, ho]
    simp only [State.windowWrite, ht]
  · have ht : windowTarget o = .errcmd := by simp [windowTarget, ho]
    simp only [State.windowWrite, ht]
  · have ht : windowTarget o = .id := by simp [windowTarget, ho]
    simp only [State.windowWrite, ht]
  · have ht : windowTarget o = .reserved := by
      unfold windowTarget
      repeat rw [if_neg (by omega)]
    simp only [State.windowWrite, ht]

theorem errCauseWord_eq (s : State) : s.errCauseWord = BitVec.ofNat 32 s.errCause.toNat :=
  (BitVec.ofNat_toNat 32 s.errCause).symm

/-- What a read from 0x200 on answers (R30 to R36, R52). -/
theorem windowRead_control (s : State) {o : Offset} (ho : 0x200 ≤ o.toNat) : s.windowRead o =
    if o.toNat = 0x204 then s.statusWord
    else if o.toNat = 0x208 then BitVec.ofNat 32 s.errCause.toNat
    else if o.toNat = 0x20C then s.errCmd
    else if o.toNat = 0x210 then s.ctrlWord
    else if o.toNat = 0x214 then 0xED250100
    else 0x00000000 := by
  rw [← errCauseWord_eq]
  by_cases hcmd : o.toNat = 0x200
  · have ht : windowTarget o = .cmd := by simp [windowTarget, hcmd]
    simp [State.windowRead, ht, hcmd]
  · unfold State.windowRead windowTarget
    rw [if_neg (by omega), if_neg hcmd]
    split_ifs <;> rfl

/-- A STATUS write, as an update of the fields it may change (R32). -/
theorem writeStatus_eq (s : State) (w : Word) : s.writeStatus w = { s with
    done := s.done && !w[1]
    err := s.err && !w[2]
    errCause := if w[2] then 0 else s.errCause
    errCmd := if w[2] then 0 else s.errCmd } := by
  unfold State.writeStatus State.clearError State.withDone
  cases w[1] <;> cases w[2] <;> simp

/-! ### Words read and written by the host -/

/-- A 32-bit write at an aligned offset that does not stall. -/
theorem step_write {s : State} {o : Offset} {w : Word} {rest : List HostMove} (hs : s.stalled = none)
    (hi : s.inbox = .access ⟨o, 4, .write w⟩ :: rest) (hal : o.toNat % 4 = 0) (hu : s.unit = .idle ∨ 0x200 ≤ o.toNat) :
    step s = .next (((s.withInbox rest).windowWrite o w).respond ⟨none, false⟩) := by
  have hl : (⟨o, 4, .write w⟩ : Access).legal = true := Access.legal_iff.2 ⟨rfl, hal⟩
  rw [step_access hs hi (mustStall_false hu), State.perform, if_pos hl]

/-- A 32-bit read at an aligned offset that does not stall. -/
theorem step_read {s : State} {o : Offset} {rest : List HostMove} (hs : s.stalled = none)
    (hi : s.inbox = .access ⟨o, 4, .read⟩ :: rest) (hal : o.toNat % 4 = 0) (hu : s.unit = .idle ∨ 0x200 ≤ o.toNat) :
    step s = .next ((s.withInbox rest).respond ⟨some (s.windowRead o), false⟩) := by
  have hl : (⟨o, 4, .read⟩ : Access).legal = true := Access.legal_iff.2 ⟨rfl, hal⟩
  rw [step_access hs hi (mustStall_false hu), State.perform, if_pos hl]
  rfl

/-- What the host reads of a block in its reset state (R200). -/
theorem resetBlock_reads (s : State) : s.resetBlock.ctrlWord = 0 ∧ s.resetBlock.statusWord = 0 ∧
    s.resetBlock.errCauseWord = 0 ∧ (∀ i, (s.resetBlock.readF i).val = 0) ∧ ∀ a, s.resetBlock.opram.readByte a = 0x00 :=
  ⟨rfl, rfl, rfl, fun i => congrArg Fin.val (readF_reset i), fun _ => rfl⟩

end Sys2Proof.Machine

namespace Sys2Proof.Spec

open Sys2Proof Sys2Proof.Machine

/-- Settles O41: the bits of the word, and the fields a STATUS write updates. -/
theorem statusReadsAndWrites : Obligations.StatusReadsAndWrites := by
  refine ⟨statusWord_bits, fun s w rest hs hi => ?_⟩
  rw [step_write hs hi (by decide) (.inr (by decide)), windowWrite_status, writeStatus_eq]
  rfl

/-- Settles O42: a CTRL write resets the block or sets the enables. -/
theorem ctrlReadsAndWrites : Obligations.CtrlReadsAndWrites := by
  refine ⟨ctrlWord_bits, fun s w rest hs hi => ?_⟩
  have hst := step_write hs hi (by decide) (.inr (by decide))
  rw [windowWrite_ctrl] at hst
  refine ⟨fun hw => ?_, fun hw => ?_⟩
  · rw [hst, State.writeCtrl_enables _ _ hw]
    rfl
  · rw [State.writeCtrl_srst _ _ hw] at hst
    obtain ⟨hctrl, hstatus, hcause, hf, ho⟩ := resetBlock_reads (s.withInbox rest)
    exact ⟨_, hst, hctrl, rfl, hstatus, hcause, rfl, hf, ho⟩

/-- Settles O43: no offset from 0x200 on stalls, and each reads as its register. -/
theorem controlRegisterReads : Obligations.ControlRegisterReads := by
  intro s rest o hs hi ho hal
  rw [step_read hs hi hal (.inr ho), windowRead_control s ho]

/-- Settles O44: no effect at the read-only and reserved offsets, and STATUS and CTRL writes see their own bits only. -/
theorem readOnlyAndReservedWritesAreIgnored : Obligations.ReadOnlyAndReservedWritesAreIgnored := by
  refine ⟨fun s w rest o hs hi hal ho => ?_, fun s w w' h1 h2 => ?_, fun s w w' h0 h1 h2 => ?_⟩
  · rw [step_write hs hi hal (.inr (by omega)), windowWrite_ignored _ w ho]
  · rw [windowWrite_status, windowWrite_status, State.writeStatus, State.writeStatus, h1, h2]
  · rw [windowWrite_ctrl, windowWrite_ctrl, State.writeCtrl, State.writeCtrl, h0, h1, h2]

end Sys2Proof.Spec
end

section
/-! SUPPORT. The reset state, and a step that completes the held word: O1 and O25. -/

namespace Sys2Proof.Spec

open Sys2Proof Sys2Proof.Machine

/-- Settles O1: the registers by `readF_reset`, the rest of R200's table by evaluation of the literal state. -/
theorem resetStateIsAsSpecified : Obligations.ResetStateIsAsSpecified :=
  ⟨fun i => congrArg Fin.val (readF_reset i), fun _ _ => rfl, rfl, rfl, rfl, rfl, rfl, rfl, rfl⟩

/-- A word as a 32-bit number decodes as the word. -/
theorem decodeTableWord_toNat {w : Word} {i : Instr} (hd : decode w = .ok i) : decodeTableWord 32 w.toNat = some i := by
  have hw : w.toNat % 2 ^ 32 = w.toNat := Nat.mod_eq_of_lt w.isLt
  simp only [decodeTableWord, hw, if_pos w.isLt, BitVec.ofNat_toNat, BitVec.setWidth_eq, hd]
  rfl

/-- The completion of a word that decodes, as Exec with R27's completion after it. -/
theorem complete_eq_thenCompleted {w : Word} {i : Instr} (hd : decode w = .ok i) (s : State) :
    s.complete w = thenCompleted (exec i s) := by
  obtain ⟨u, hu, -⟩ := exec_spec i s
  rw [hu, thenCompleted_next]
  exact complete_next.2 ⟨i, u, hd, hu, rfl⟩

/-- A step that can only be a completion from `u` is Exec from `u` with R27's completion after it. -/
theorem step_of_completes {s u : State} {w : Word} {i : Instr} (hd : decode w = .ok i)
    (h : ∀ t, Completes w u t → StepCase s t) : step s = thenCompleted (exec i u) := by
  obtain ⟨t, ht⟩ := complete_of_decode hd u
  rw [← complete_eq_thenCompleted hd u, ht]
  exact (h t (complete_next.1 ht)).step_eq

/-- Settles O25: each way of completing is a case of `StepCase`, and the completion is that of R27. -/
theorem stepRunsTheHeldCommand : Obligations.StepRunsTheHeldCommand := by
  intro w i hd
  refine ⟨decodeTableWord_toNat hd, fun s n hb hi => ?_, fun s n rest hb hn hi => ?_, fun s n rest hb hi => ?_,
    fun s n a b rest hb hs hi => ?_, fun s => ?_⟩
  · exact step_of_completes hd fun t ht => .completes w n hb (.inl hi) ht
  · exact step_of_completes hd fun t ht => .lastTick w n rest hb hn hi ht
  · exact step_of_completes hd fun t ht => .awaited w n rest hb hi ht
  · exact step_of_completes hd fun t ht => .completes w n hb (.inr ⟨b, a, rest, hs, hi⟩) ht
  · have hw : BitVec.ofNat 32 (w.toNat % 2 ^ 32) = w := by
      rw [Nat.mod_eq_of_lt w.isLt, BitVec.ofNat_toNat, BitVec.setWidth_eq]
    rw [State.withFetchWord, hw]
    exact step_of_completes hd fun t ht => .lastTick w 1 s.inbox rfl le_rfl rfl ht

end Sys2Proof.Spec
end

section
/-! SUPPORT. The words of operand RAM and the accesses of the host, one equation each (spec/20_memory.md R50 to R61): O45, O46,
O47, O48 and O53. -/

namespace Sys2Proof.Machine

open Sys2Proof

/-! ### Words of operand RAM (R10, R56) -/

/-- A multi-byte write, byte by byte: what it stores, and what it leaves (R10). -/
theorem Memory.write_bytes {m : Memory} (h : m.wf = true) {addr n : Nat} (ha : addr + n ≤ Config.opramBytes) (v : Nat) :
    (∀ k, k < n → (m.write addr n v).readByte (addr + k) = BitVec.ofNat 8 (v >>> (8 * k))) ∧
      ∀ x, x < addr ∨ addr + n ≤ x → (m.write addr n v).readByte x = m.readByte x := by
  refine ⟨fun k hk => ?_, fun x hx => ?_⟩
  · rw [Memory.readByte_write h ha, if_pos (by omega), Nat.add_sub_cancel_left]
  · rw [Memory.readByte_write h ha, if_neg (by omega)]

/-- The low bytes of a longer integer are the integer of the first bytes. -/
theorem Memory.read_add_mod (m : Memory) (addr n r : Nat) : m.read addr (n + r) % 2 ^ (8 * n) = m.read addr n := by
  induction n generalizing addr with
  | zero => simp [Memory.read_zero, Nat.mod_one]
  | succ n ih =>
    have hb := (m.readByte addr).isLt
    rw [show n + 1 + r = n + r + 1 by omega, Memory.read_succ, Memory.read_succ, ← ih (addr + 1),
      show 8 * (n + 1) = 8 + 8 * n by omega, pow_add, Nat.mod_mul, Nat.add_mul_mod_self_left, Nat.mod_eq_of_lt hb,
      Nat.add_mul_div_left _ _ (by decide), Nat.div_eq_of_lt hb, Nat.zero_add]

/-- A 32-bit word inside a longer integer is the word at the address above (R56). -/
theorem Memory.read_word (m : Memory) (addr : Nat) {n i : Nat} (hi : i + 4 ≤ n) :
    BitVec.ofNat 32 (m.read addr n >>> (8 * i)) = BitVec.ofNat 32 (m.read (addr + i) 4) := by
  obtain ⟨r, rfl⟩ := Nat.exists_eq_add_of_le hi
  rw [show i + 4 + r = i + (4 + r) by omega, Memory.read_shift, ← Memory.read_add_mod m (addr + i) 4 r]
  apply BitVec.eq_of_toNat_eq
  simp only [BitVec.toNat_ofNat]
  omega

/-- The four bytes of a word, the lowest address first (R56). -/
theorem Memory.read_four (m : Memory) (addr : Nat) : m.read addr 4 = (m.readByte addr).toNat +
    (m.readByte (addr + 1)).toNat * 2 ^ 8 + (m.readByte (addr + 2)).toNat * 2 ^ 16 +
      (m.readByte (addr + 3)).toNat * 2 ^ 24 := by
  simp only [Memory.read_succ, Memory.read_zero, Nat.add_assoc, Nat.reduceAdd]
  omega

/-! ### What stands at an offset -/

/-- From 0x218 on everything is reserved (R52). -/
theorem windowTarget_reserved {o : Offset} (ho : 0x218 ≤ o.toNat) : windowTarget o = .reserved := by
  unfold windowTarget
  repeat rw [if_neg (by omega)]

/-- The six control registers are at their offsets (spec/10_state.md R30). -/
theorem windowTarget_register (o : Offset) : (windowTarget o = .cmd ↔ o.toNat = 0x200) ∧
    (windowTarget o = .status ↔ o.toNat = 0x204) ∧ (windowTarget o = .errcause ↔ o.toNat = 0x208) ∧
    (windowTarget o = .errcmd ↔ o.toNat = 0x20C) ∧ (windowTarget o = .ctrl ↔ o.toNat = 0x210) ∧
    (windowTarget o = .id ↔ o.toNat = 0x214) := by
  unfold windowTarget
  split_ifs <;> simp <;> omega

theorem windowOffset_hostAddress (o : Offset) : windowOffset (hostAddress o) = some o := by
  have ho : o.toNat < Config.windowBytes := o.isLt
  rw [windowOffset, if_pos (by unfold hostAddress; omega), hostAddress, Nat.add_sub_cancel_left, BitVec.ofNat_toNat,
    BitVec.setWidth_eq]

theorem hostAddress_of_windowOffset {addr : Nat} {o : Offset} (h : windowOffset addr = some o) : addr = hostAddress o := by
  unfold windowOffset at h
  split at h
  · rename_i hin
    obtain rfl : BitVec.ofNat 12 (addr - Config.fauBase) = o := by simpa using h
    rw [hostAddress, BitVec.toNat_ofNat, Nat.mod_eq_of_lt (show _ < Config.windowBytes by omega)]
    omega
  · cases h

/-- The offset of word j of a slot, which is an OPRAM offset (R51, R59). -/
theorem slotWord_toNat (k : Slot) {j : Nat} (hj : j < 8) :
    (BitVec.ofNat 12 (32 * k.val + 4 * j)).toNat = slotAddress k + 4 * j ∧ slotAddress k + 4 * j < 0x200 ∧
      (slotAddress k + 4 * j) % 4 = 0 := by
  have hk := k.isLt
  simp only [BitVec.toNat_ofNat, slotAddress, Config.slotBytes, Config.nslot] at *
  omega

/-! ### Reads and writes -/

theorem windowRead_opram (s : State) {o : Offset} (ho : o.toNat < 0x200) :
    s.windowRead o = BitVec.ofNat 32 (s.opram.read o.toNat 4) := by
  simp only [State.windowRead, windowTarget_opram.2 ho]

theorem windowWrite_opram (s : State) {o : Offset} (ho : o.toNat < 0x200) (w : Word) :
    s.windowWrite o w = s.withOpram (s.opram.write o.toNat 4 w.toNat) := by
  simp only [State.windowWrite, windowTarget_opram.2 ho]

/-- The words of a slot are the words of its integer (R56). -/
theorem windowRead_slotWord (s : State) (k : Slot) {j : Nat} (hj : j < 8) :
    s.windowRead (BitVec.ofNat 12 (32 * k.val + 4 * j)) = BitVec.ofNat 32 (s.readSlot k >>> (32 * j)) := by
  obtain ⟨ho, hlt, -⟩ := slotWord_toNat k hj
  rw [windowRead_opram s (by omega), ho, show 32 * j = 8 * (4 * j) by omega]
  exact (Memory.read_word s.opram (slotAddress k) (show 4 * j + 4 ≤ 32 by omega)).symm

/-- A word written to OPRAM is the word read there (R56). -/
theorem windowRead_windowWrite {s : State} (h : s.opram.wf = true) {o : Offset} (ho : o.toNat < 0x200)
    (hal : o.toNat % 4 = 0) (w : Word) : (s.windowWrite o w).windowRead o = w := by
  rw [windowRead_opram _ ho, windowWrite_opram _ ho, State.withOpram_opram,
    Memory.read_write_same h (show _ ≤ 512 by omega) w.isLt, BitVec.ofNat_toNat, BitVec.setWidth_eq]

/-- A read answers with what stands at the offset, or with a bus error and 0; nothing else changes (R55, R61). -/
theorem perform_read {a : Access} (hk : a.kind = .read) (s : State) :
    s.perform a = s.respond ⟨some (if a.legal then s.windowRead a.offset else 0x00000000), !a.legal⟩ := by
  unfold State.perform Access.busErrorResponse
  cases a.legal <;> simp [hk]

/-- A write has its effect, or gets a bus error and has none (R55). -/
theorem perform_write {a : Access} {w : Word} (hk : a.kind = .write w) (s : State) :
    s.perform a = (if a.legal then s.windowWrite a.offset w else s).respond ⟨none, !a.legal⟩ := by
  unfold State.perform Access.busErrorResponse
  cases a.legal <;> simp [hk]

/-- A bus error is an answer and nothing else; a read then returns 0 (R55). -/
theorem perform_busError {a : Access} (h : a.bytes ≠ 4 ∨ a.offset.toNat % 4 ≠ 0) (s : State) :
    s.perform a = s.respond ⟨if a.kind = .read then some 0x00000000 else none, true⟩ := by
  have hl : a.legal = false := by
    rw [← Bool.not_eq_true, Access.legal_iff]
    omega
  cases hk : a.kind with
  | read => simp [perform_read hk, hl]
  | write w => simp [perform_write hk, hl]

/-- A read does not see the answers given so far. -/
theorem windowRead_respond (s : State) (r : Response) (o : Offset) : (s.respond r).windowRead o = s.windowRead o := rfl

/-- A write elsewhere than to CMD, STATUS and CTRL stores its bytes or does nothing (R37, R52, R56, R61). -/
theorem perform_stores {a : Access} {w : Word} (hk : a.kind = .write w) (hcmd : a.offset.toNat ≠ 0x200)
    (hstatus : a.offset.toNat ≠ 0x204) (hctrl : a.offset.toNat ≠ 0x210) (s : State) : s.perform a = (s.withOpram
      (if a.legal = true ∧ a.offset.toNat < 0x200 then s.opram.write a.offset.toNat 4 w.toNat else s.opram)).respond
        ⟨none, !a.legal⟩ := by
  rw [perform_write hk]
  congr 1
  by_cases hl : a.legal = true
  · obtain ⟨-, hal⟩ := Access.legal_iff.1 hl
    by_cases ho : a.offset.toNat < 0x200
    · rw [if_pos hl, if_pos ⟨hl, ho⟩, windowWrite_opram s ho]
    · rw [if_pos hl, if_neg (fun h => ho h.2), windowWrite_ignored s w (by omega)]
      rfl
  · rw [if_neg hl, if_neg (fun h => hl h.1)]
    rfl

/-! ### The stall (R57) -/

/-- A CMD write, whatever its outcome, is not an answer. -/
@[simp] theorem State.onCmdWrite_responses (s : State) (w : Word) : (s.onCmdWrite w).responses = s.responses := by
  cases onCmdWrite_cases w s with
  | discarded he ht => rw [ht]
  | refusedBusy v n he hu ht => rw [ht]; rfl
  | refused e he hu hd ht => rw [ht]; rfl
  | accepted i he hu hd ht => rw [ht]; rfl

@[simp] theorem State.writeCtrl_responses (s : State) (w : Word) : (s.writeCtrl w).responses = s.responses := by
  unfold State.writeCtrl; split <;> rfl

/-- Every access is answered, once. -/
theorem perform_responses (a : Access) (s : State) : ∃ r, (s.perform a).responses = r :: s.responses := by
  cases perform_cases a s with
  | answers r ht => exact ⟨r, by rw [ht]; rfl⟩
  | stores w hk ho hal ht => exact ⟨⟨none, false⟩, by rw [ht]; rfl⟩
  | command w ha ht => exact ⟨⟨none, false⟩, by rw [ht]; simp⟩
  | status w ha ht => exact ⟨⟨none, false⟩, by rw [ht]; simp⟩
  | control w ha ht => exact ⟨⟨none, false⟩, by rw [ht]; simp⟩

/-- An OPRAM access that arrives while the unit is BUSY is held (R57). -/
theorem step_stalls {s : State} {a : Access} {rest : List HostMove} (hb : s.busy = true) (hs : s.stalled = none)
    (ho : a.offset.toNat < 0x200) (hi : s.inbox = .access a :: rest) :
    step s = .next ((s.withInbox rest).withStalled (some a)) := by
  have hm : s.mustStall a = true := by simp [State.mustStall, hb, windowTarget_opram.2 ho]
  exact (StepCase.stalls a rest hs hi hm rfl).step_eq

/-- The held access is performed in the first step in which the unit is IDLE (R57). -/
theorem step_held {s : State} {a : Access} (hu : s.unit = .idle) (hs : s.stalled = some a) :
    step s = .next ((s.withStalled none).perform a) :=
  (StepCase.held a hu hs rfl).step_eq

/-- While the unit is BUSY a held access stays held, and only a reset answers anything (R57, U2). -/
theorem held_while_busy {s t : State} {a : Access} (hs : s.stalled = some a) (hb : s.busy = true)
    (hst : step s = .next t) : t.stalled = some a ∧
      ((∀ during rest, s.inbox ≠ .rst during :: rest) → t.responses = s.responses) := by
  have not_idle : s.unit ≠ .idle := fun hu => by rw [busy_of_idle hu] at hb; cases hb
  have not_free : s.stalled ≠ none := fun hn => by rw [hs] at hn; cases hn
  have completed : ∀ {w rest}, Completes w (s.withInbox rest) t → t.stalled = some a ∧
      ((∀ during rest, s.inbox ≠ .rst during :: rest) → t.responses = s.responses) := by
    intro w rest hc
    obtain ⟨-, -, -, -, -, -, -, hstalled, -, hresp, -⟩ := hc.control
    exact ⟨hstalled.trans hs, fun _ => hresp⟩
  cases step_cases hst with
  | held _ hu _ _ => exact absurd hu not_idle
  | waits hn _ _ _ => exact absurd hn not_free
  | idleTime _ _ _ hn _ _ _ => exact absurd hn not_free
  | stalls _ _ hn _ _ _ => exact absurd hn not_free
  | performs _ _ hn _ _ _ => exact absurd hn not_free
  | completes w n _ _ ht => exact completed (rest := s.inbox) ht
  | lastTick w n rest _ _ _ ht => exact completed ht
  | awaited w n rest _ _ ht => exact completed ht
  | busyTick w n rest _ _ _ ht => subst ht; exact ⟨hs, fun _ => rfl⟩
  | reset during rest _ hi ht =>
    subst ht
    exact ⟨(State.hardReset_stalled _ _).trans hs, fun h => absurd hi (h during rest)⟩

end Sys2Proof.Machine

namespace Sys2Proof.Spec

open Sys2Proof Sys2Proof.Machine

/-- Settles O53: FAU_BASE is a product with 4096, and the rest is the map read off in both directions. -/
theorem windowMap : Obligations.WindowMap := by
  refine ⟨Nat.mul_mod_right _ _, windowOffset_hostAddress, fun _ _ => hostAddress_of_windowOffset, fun o => ?_⟩
  obtain ⟨hcmd, hstatus, hcause, herrcmd, hctrl, hid⟩ := windowTarget_register o
  exact ⟨windowTarget_opram, hcmd, hstatus, hcause, herrcmd, hctrl, hid, windowTarget_reserved⟩

/-- Settles O45: a read is its answer, which the answer does not change; a write stores its four bytes or does nothing. -/
theorem readsHaveNoSideEffect : Obligations.ReadsHaveNoSideEffect := by
  refine ⟨fun s a hk => ⟨_, perform_read hk s, ?_⟩,
    fun s a w hk hcmd hstatus hctrl => perform_stores hk hcmd hstatus hctrl s, fun s a w hwf hk hl ho => ?_⟩
  · rw [perform_read hk s, perform_read hk, windowRead_respond]
  · obtain ⟨-, hal⟩ := Access.legal_iff.1 hl
    have hm : (s.perform a).opram = s.opram.write a.offset.toNat 4 w.toNat := by
      rw [perform_write hk, if_pos hl, windowWrite_opram s ho]
      rfl
    rw [hm]
    exact Memory.write_bytes hwf (show _ ≤ 512 by omega) w.toNat

/-- Settles O46: the access arrives and does not stall, or was held; either way it is performed as a bus error. -/
theorem busErrorsChangeNothing : Obligations.BusErrorsChangeNothing := by
  intro s a h
  refine ⟨fun rest hs hu hi => ?_, fun hu hs => ?_⟩
  · rw [step_access hs hi (mustStall_false hu), perform_busError h]
  · rw [step_held hu hs, perform_busError h]

/-- Settles O47: an aligned word is its four bytes, the lowest first, and a slot is its eight words. -/
theorem hostWordsAreLittleEndian : Obligations.HostWordsAreLittleEndian := by
  refine ⟨fun s o rest hu hs ho hal hi => ?_, fun s o w rest hu hs ho hal hwf hi => ?_,
    fun s k j hj => windowRead_slotWord s k hj⟩
  · rw [step_read hs hi hal (.inl hu), windowRead_opram s ho, Memory.read_four]
  · obtain ⟨hstored, hkept⟩ := Memory.write_bytes hwf (show o.toNat + 4 ≤ 512 by omega) w.toNat
    have hst := step_write hs hi hal (.inl hu)
    rw [windowWrite_opram _ ho] at hst
    exact ⟨_, hst, hstored, hkept, fun i => rfl, by constructor <;> rfl⟩

/-- Settles O48: the stall, what happens while it lasts, and the two ways in which it ends. -/
theorem opramAccessStallsWhileBusy : Obligations.OpramAccessStallsWhileBusy := by
  refine ⟨fun s a rest w n hb hs ho hi => step_stalls (busy_of_busy hb) hs ho hi,
    fun s t a hs hb hst => held_while_busy hs hb hst, fun s a hs hu => step_held hu hs,
    fun s a rest w n hb hs hi => ?_, fun s a rest hs ho hi => ?_⟩
  · have hst := (StepCase.reset none rest (heldAccess_busy hb) hi rfl).step_eq
    exact ⟨_, _, hst, rfl, rfl, step_held rfl hs, rfl⟩
  · obtain ⟨r, hr⟩ := perform_responses a (s.withInbox rest)
    exact ⟨_, step_access hs hi (mustStall_false (.inr ho)), by simpa using hs, by simp, by rw [hr]; rfl⟩

end Sys2Proof.Spec
end

section
/-! SUPPORT. Short runs of the host: what it writes before a CMD write, and what it reads after one (spec/20_memory.md R63): O49
and O50. -/

namespace Sys2Proof.Machine

open Sys2Proof Sys2Proof.Laws

theorem decode_encode_fld (d : Reg) (k : Slot) : decode (encode (.fld d k)) = .ok (.fld d k) := by
  obtain ⟨hop, hd, -, hk, -, -⟩ :=
    buildWord_fields (op := 0x08) (by decide) d.isLt (by decide : 0 < 16) k.isLt (by decide : 0 < 2)
  have hD : fieldD (encode (.fld d k)) = d := Fin.ext hd
  have hS : fieldS (encode (.fld d k)) = k := Fin.ext hk
  refine decode_ok_iff.2 ⟨rowFld, ?_, MatchesRow.fld d k⟩
  rw [rowOf, hD, hS]
  simp only [encode, hop]

theorem decode_encode_fst (k : Slot) (a : Reg) : decode (encode (.fst k a)) = .ok (.fst k a) := by
  obtain ⟨hop, -, ha, hk, -, -⟩ :=
    buildWord_fields (op := 0x09) (by decide) (by decide : 0 < 16) a.isLt k.isLt (by decide : 0 < 2)
  have hA : fieldA (encode (.fst k a)) = a := Fin.ext ha
  have hS : fieldS (encode (.fst k a)) = k := Fin.ext hk
  refine decode_ok_iff.2 ⟨rowFst, ?_, MatchesRow.fst k a⟩
  rw [rowOf, hA, hS]
  simp only [encode, hop]

/-- The CMD write of a command to an IDLE unit with no error recorded starts it (R25, R170). -/
theorem step_accepts {s : State} {w : Word} {i : Instr} {rest : List HostMove} (hd : decode w = .ok i)
    (hu : s.unit = .idle) (he : s.err = false) (hs : s.stalled = none)
    (hi : s.inbox = .access ⟨0x200, 4, .write w⟩ :: rest) : step s =
      .next ((((s.withInbox rest).withDone false).withUnit (.busy w (latencyOf i))).respond ⟨none, false⟩) := by
  have hw : (s.withInbox rest).windowWrite 0x200 w = (s.withInbox rest).onCmdWrite w := rfl
  rw [step_write hs hi (by decide) (.inr (by decide)), hw, State.onCmdWrite]
  simp [he, hu, hd]

/-- With no move to come a BUSY unit completes its command in one step (R27). -/
theorem step_completes {s t : State} {w : Word} {n : Nat} {i : Instr} (hd : decode w = .ok i) (hb : s.unit = .busy w n)
    (hi : s.inbox = []) (he : exec i s = .next t) : step s = .next t.finish :=
  (StepCase.completes w n hb (.inl hi) ⟨i, t, hd, he, rfl⟩).step_eq

/-- A held read of an aligned offset is answered once the unit is IDLE (R57). -/
theorem step_held_read {s : State} {o : Offset} (hu : s.unit = .idle) (hs : s.stalled = some ⟨o, 4, .read⟩)
    (hal : o.toNat % 4 = 0) : step s = .next ((s.withStalled none).respond ⟨some (s.windowRead o), false⟩) := by
  have hl : (⟨o, 4, .read⟩ : Access).legal = true := Access.legal_iff.2 ⟨rfl, hal⟩
  rw [step_held hu hs, perform_read rfl, hl]
  rfl

theorem runFor_next {k : Nat} {s t u : State} (h : step s = .next t) (hr : runFor k t = .next u) :
    runFor (k + 1) s = .next u :=
  (runFor_succ h).trans hr

/-- Word j of a slot where OPRAM is what a store to the slot left (R56, R160). -/
theorem windowRead_stored_slot {t : State} {m : Memory} {k : Slot} {v j : Nat} (h : m.wf = true)
    (ht : t.opram = m.write (slotAddress k) Config.slotBytes v) (hv : v < 2 ^ 256) (hj : j < 8) :
    t.windowRead (BitVec.ofNat 12 (32 * k.val + 4 * j)) = BitVec.ofNat 32 (v >>> (32 * j)) := by
  rw [windowRead_slotWord t k hj, State.readSlot, ht, Memory.read_write_same h (slotAddress_in_opram k) hv]

/-- What FLD loads: the integer without its bit 255, reduced (R150). -/
theorem fieldOfBytes_val (n : Nat) : (fieldOfBytes n).val = n % 2 ^ 255 % (2 ^ 255 - 19) := rfl

end Sys2Proof.Machine

namespace Sys2Proof.Spec

open Sys2Proof Sys2Proof.Machine

/-- Settles O49: the CMD write is accepted, the read is held, FST completes, and the read sees its store. -/
theorem readAfterFstSeesTheStore : Obligations.ReadAfterFstSeesTheStore := by
  intro s k a j hj hu he hs hwf hi
  have hd := decode_encode_fst k a
  obtain ⟨ho, hlt, hal⟩ := slotWord_toNat k hj
  have hv : (s.readF a).val < 2 ^ 256 := (s.readF a).isLt.trans (by decide)
  rw [← ho] at hlt hal
  refine ⟨_, runFor_next (step_accepts hd hu he hs hi) <|
    runFor_next (step_stalls rfl hs hlt rfl) <|
    runFor_next (step_completes hd rfl rfl (exec_fst k a _)) <|
    runFor_next (step_held_read rfl rfl hal) (runFor_zero _), rfl, ?_⟩
  rw [State.respond_responses, List.head?_cons, windowRead_stored_slot hwf ?_ hv hj]
  simp

/-- Settles O50: the word is stored, the CMD write is accepted, and FLD loads the slot it finds. -/
theorem fldSeesEarlierWrites : Obligations.FldSeesEarlierWrites := by
  intro s d k j w hj hu he hs hwf hi
  have hd := decode_encode_fld d k
  obtain ⟨ho, hlt, hal⟩ := slotWord_toNat k hj
  rw [← ho] at hlt hal
  have hstored := step_write hs hi hal (.inl hu)
  have hword := windowRead_windowWrite (s := s) hwf hlt hal w
  rw [windowWrite_opram _ hlt] at hstored hword
  rw [windowRead_slotWord _ k hj] at hword
  refine ⟨_, _, runFor_next hstored (runFor_zero _), hword,
    runFor_next hstored <|
    runFor_next (step_accepts hd hu he hs rfl) <|
    runFor_next (step_completes hd rfl rfl (exec_fld d k _)) (runFor_zero _), ?_⟩
  rw [State.readF_finish, State.readF_writeF_same, fieldOfBytes_val]
  rfl

end Sys2Proof.Spec
end

section
/-! SUPPORT. Command words against commands (spec/30_encoding.md R81 to R90): which word is which command's, and what a
word that is no command's is refused for: O18 to O23. -/

namespace Sys2Proof

open Sys2Proof.Laws

/-! ### Commands by row and operands -/

/-- The operands of the command are the fields of the word (R81, R83). -/
def HasOperands (w : Word) : Instr → Prop
  | .fadd d a b | .fsub d a b | .fmul d a b => fieldD w = d ∧ fieldA w = a ∧ fieldB w = b
  | .fsqr d a | .fneg d a | .finv d a => fieldD w = d ∧ fieldA w = a
  | .fcswap a b c => fieldA w = a ∧ fieldB w = b ∧ fieldC w = c
  | .fld d s => fieldD w = d ∧ fieldS w = s
  | .fst s a => fieldS w = s ∧ fieldA w = a

theorem rowFor_mem (i : Instr) : rowFor i ∈ opcodeTable := by
  cases i <;> simp [rowFor, opcodeTable]

/-- Every row is a command's, for the fields of any word. -/
theorem exists_command_of_row {row : OpcodeRow} (hr : row ∈ opcodeTable) (w : Word) :
    ∃ i, rowFor i = row ∧ HasOperands w i := by
  simp only [opcodeTable, List.mem_cons, List.not_mem_nil, or_false] at hr
  obtain rfl | rfl | rfl | rfl | rfl | rfl | rfl | rfl | rfl := hr
  · exact ⟨.fadd _ _ _, rfl, rfl, rfl, rfl⟩
  · exact ⟨.fsub _ _ _, rfl, rfl, rfl, rfl⟩
  · exact ⟨.fmul _ _ _, rfl, rfl, rfl, rfl⟩
  · exact ⟨.fsqr _ _, rfl, rfl, rfl⟩
  · exact ⟨.fneg _ _, rfl, rfl, rfl⟩
  · exact ⟨.finv _ _, rfl, rfl, rfl⟩
  · exact ⟨.fcswap _ _ _, rfl, rfl, rfl, rfl⟩
  · exact ⟨.fld _ _, rfl, rfl, rfl⟩
  · exact ⟨.fst _ _, rfl, rfl, rfl⟩

theorem fieldOp_and (w m : Word) : fieldOp (w &&& m) = fieldOp w &&& fieldOp m :=
  BitVec.extractLsb'_and

/-- The mask of every row covers OP, and its pattern has the row's opcode there (R84). -/
theorem opcodeTable_covers_op : ∀ row ∈ opcodeTable,
    fieldOp row.mask = BitVec.allOnes 8 ∧ fieldOp row.pattern = row.op := by decide

/-- What a row selects has the row's opcode, so no word is of two rows (R88). -/
theorem fieldOp_of_selects {row : OpcodeRow} (hr : row ∈ opcodeTable) {w : Word} (hs : row.selects w = true) :
    fieldOp w = row.op := by
  obtain ⟨hmask, hpattern⟩ := opcodeTable_covers_op row hr
  have hw : w &&& row.mask = row.pattern := by simpa [OpcodeRow.selects] using hs
  rw [← hpattern, ← hw, fieldOp_and, hmask, BitVec.and_allOnes]

theorem opcodeTable_op_injective : ∀ r ∈ opcodeTable, ∀ r' ∈ opcodeTable, r.op = r'.op → r = r' := by decide

/-- The row found for a word is the one with its opcode, and the command has the word's fields as operands (R85). -/
theorem rowOf_eq_some_iff {w : Word} {row : OpcodeRow} {i : Instr} :
    rowOf w = some (row, i) ↔ row = rowFor i ∧ fieldOp w = row.op ∧ HasOperands w i := by
  constructor
  · intro h
    unfold rowOf at h
    split at h <;> cases h <;> rename_i hop
    all_goals exact ⟨rfl, BitVec.eq_of_toNat_eq hop, by simp [HasOperands]⟩
  · rintro ⟨rfl, hop, hi⟩
    unfold rowOf
    rw [hop]
    cases i <;> simp only [HasOperands] at hi <;> simp only [hi] <;> rfl

/-- A word decodes to the command when the command's row selects it and its fields are the command's operands. -/
theorem decode_eq_ok_iff {w : Word} {i : Instr} :
    decode w = .ok i ↔ (rowFor i).selects w = true ∧ HasOperands w i := by
  simp only [decode_ok_iff, rowOf_eq_some_iff]
  constructor
  · rintro ⟨_, ⟨rfl, -, hi⟩, hs⟩
    exact ⟨hs, hi⟩
  · rintro ⟨hs, hi⟩
    exact ⟨_, ⟨rfl, fieldOp_of_selects (rowFor_mem i) hs, hi⟩, hs⟩

/-! ### Encoding (R83) -/

/-- The operand fields of a built word are the operands it was built from. -/
theorem buildWord_operands {op : Nat} (ho : op < 256) (d a b : Reg) (c : Bool) :
    fieldD (buildWord op d a b c.toNat) = d ∧ fieldA (buildWord op d a b c.toNat) = a ∧
      fieldB (buildWord op d a b c.toNat) = b ∧ fieldC (buildWord op d a b c.toNat) = c := by
  obtain ⟨-, hd, ha, hb, hc, -⟩ := buildWord_fields ho d.isLt a.isLt b.isLt c.toNat_lt
  exact ⟨Fin.ext hd, Fin.ext ha, Fin.ext hb, (by decide : ∀ x y : Bool, x.toNat = y.toNat → x = y) _ _ hc⟩

/-- A word with RSV = 0 is built from its fields. -/
theorem buildWord_of_fields {w : Word} {op d a b c : Nat} (ho : fieldOp w = BitVec.ofNat 8 op) (hop : op < 256)
    (hd : (fieldD w).val = d) (ha : (fieldA w).val = a) (hb : (fieldB w).val = b) (hc : (fieldC w).toNat = c)
    (hr : w.toNat / 2 ^ 21 = 0) : buildWord op d a b c = w := by
  subst hd ha hb hc
  have hw := word_eq_fields w
  rw [ho, hr, BitVec.toNat_ofNat, Nat.mod_eq_of_lt hop, Nat.mul_zero, Nat.add_zero] at hw
  apply BitVec.eq_of_toNat_eq
  rw [buildWord_toNat hop (fieldD w).isLt (fieldA w).isLt (fieldB w).isLt (fieldC w).toNat_lt, hw]

theorem encode_hasOperands (i : Instr) : HasOperands (encode i) i := by
  cases i with
  | fadd d a b =>
    obtain ⟨hd, ha, hb, -⟩ := buildWord_operands (op := 0x01) (by decide) d a b false
    exact ⟨hd, ha, hb⟩
  | fsub d a b =>
    obtain ⟨hd, ha, hb, -⟩ := buildWord_operands (op := 0x02) (by decide) d a b false
    exact ⟨hd, ha, hb⟩
  | fmul d a b =>
    obtain ⟨hd, ha, hb, -⟩ := buildWord_operands (op := 0x03) (by decide) d a b false
    exact ⟨hd, ha, hb⟩
  | fsqr d a =>
    obtain ⟨hd, ha, -⟩ := buildWord_operands (op := 0x04) (by decide) d a 0 false
    exact ⟨hd, ha⟩
  | fneg d a =>
    obtain ⟨hd, ha, -⟩ := buildWord_operands (op := 0x05) (by decide) d a 0 false
    exact ⟨hd, ha⟩
  | finv d a =>
    obtain ⟨hd, ha, -⟩ := buildWord_operands (op := 0x06) (by decide) d a 0 false
    exact ⟨hd, ha⟩
  | fcswap a b c => exact (buildWord_operands (op := 0x07) (by decide) 0 a b c).2
  | fld d s =>
    obtain ⟨hd, -, hs, -⟩ := buildWord_operands (op := 0x08) (by decide) d 0 s false
    exact ⟨hd, hs⟩
  | fst s a =>
    obtain ⟨-, ha, hs, -⟩ := buildWord_operands (op := 0x09) (by decide) 0 a s false
    exact ⟨hs, ha⟩

theorem encode_matchesRow (i : Instr) : (rowFor i).selects (encode i) = true := by
  cases i with
  | fadd d a b => exact MatchesRow.fadd d a b
  | fsub d a b => exact MatchesRow.fsub d a b
  | fmul d a b => exact MatchesRow.fmul d a b
  | fsqr d a => exact MatchesRow.fsqr d a
  | fneg d a => exact MatchesRow.fneg d a
  | finv d a => exact MatchesRow.finv d a
  | fcswap a b c => exact MatchesRow.fcswap a b c
  | fld d s => exact MatchesRow.fld d s
  | fst s a => exact MatchesRow.fst s a

/-- A word its row selects has no bit but the opcode and the operands: the fields the mask names are 0 (R84, R87). -/
theorem encode_of_selects {w : Word} {i : Instr} (hs : (rowFor i).selects w = true) (hi : HasOperands w i) :
    encode i = w := by
  cases i with
  | fadd d a b =>
    obtain ⟨rfl, rfl, rfl⟩ := hi
    obtain ⟨ho, hc, hr⟩ := (selects_fadd w).1 hs
    exact buildWord_of_fields ho (by decide) rfl rfl rfl hc hr
  | fsub d a b =>
    obtain ⟨rfl, rfl, rfl⟩ := hi
    obtain ⟨ho, hc, hr⟩ := (selects_fsub w).1 hs
    exact buildWord_of_fields ho (by decide) rfl rfl rfl hc hr
  | fmul d a b =>
    obtain ⟨rfl, rfl, rfl⟩ := hi
    obtain ⟨ho, hc, hr⟩ := (selects_fmul w).1 hs
    exact buildWord_of_fields ho (by decide) rfl rfl rfl hc hr
  | fsqr d a =>
    obtain ⟨rfl, rfl⟩ := hi
    obtain ⟨ho, hb, hc, hr⟩ := (selects_fsqr w).1 hs
    exact buildWord_of_fields ho (by decide) rfl rfl hb hc hr
  | fneg d a =>
    obtain ⟨rfl, rfl⟩ := hi
    obtain ⟨ho, hb, hc, hr⟩ := (selects_fneg w).1 hs
    exact buildWord_of_fields ho (by decide) rfl rfl hb hc hr
  | finv d a =>
    obtain ⟨rfl, rfl⟩ := hi
    obtain ⟨ho, hb, hc, hr⟩ := (selects_finv w).1 hs
    exact buildWord_of_fields ho (by decide) rfl rfl hb hc hr
  | fcswap a b c =>
    obtain ⟨rfl, rfl, rfl⟩ := hi
    obtain ⟨ho, hd, hr⟩ := (selects_fcswap w).1 hs
    exact buildWord_of_fields ho (by decide) hd rfl rfl rfl hr
  | fld d s =>
    obtain ⟨rfl, rfl⟩ := hi
    obtain ⟨ho, ha, hc, hr⟩ := (selects_fld w).1 hs
    exact buildWord_of_fields ho (by decide) rfl ha rfl hc hr
  | fst s a =>
    obtain ⟨rfl, rfl⟩ := hi
    obtain ⟨ho, hd, hc, hr⟩ := (selects_fst w).1 hs
    exact buildWord_of_fields ho (by decide) hd rfl rfl hc hr

theorem decode_encode (i : Instr) : decode (encode i) = .ok i :=
  decode_eq_ok_iff.2 ⟨encode_matchesRow i, encode_hasOperands i⟩

theorem encode_of_decode {w : Word} {i : Instr} (h : decode w = .ok i) : encode i = w :=
  have ⟨hs, hi⟩ := decode_eq_ok_iff.1 h
  encode_of_selects hs hi

/-! ### Refused words (R86, R87) -/

theorem rowOf_eq_none_iff {w : Word} : rowOf w = none ↔ w.toNat % 256 = 0x00 ∨ 0x0A ≤ w.toNat % 256 := by
  rw [← fieldOp_toNat]
  unfold rowOf
  split <;> simp only [reduceCtorEq, true_iff, false_iff, imp_false] at * <;> omega

/-- R87's list of must-be-zero bits, in the fields of the word. -/
theorem reservedBitSet_iff (w : Word) : Spec.ReservedBitSet w ↔
    w.toNat / 2 ^ 21 ≠ 0 ∨ ((fieldOp w).toNat ≠ 7 ∧ (fieldC w).toNat ≠ 0) ∨
    (((fieldOp w).toNat = 4 ∨ (fieldOp w).toNat = 5 ∨ (fieldOp w).toNat = 6) ∧ (fieldB w).val ≠ 0) ∨
    (((fieldOp w).toNat = 7 ∨ (fieldOp w).toNat = 9) ∧ (fieldD w).val ≠ 0) ∨
    ((fieldOp w).toNat = 8 ∧ (fieldA w).val ≠ 0) := by
  rw [fieldOp_toNat, fieldD_val, fieldA_val, fieldB_val, fieldC_toNat, Spec.ReservedBitSet]

/-- The must-be-zero bits of a command's row are those R87 lists for its opcode. -/
theorem selects_iff_not_reserved {w : Word} {i : Instr} (ho : fieldOp w = (rowFor i).op) :
    (rowFor i).selects w = true ↔ ¬ Spec.ReservedBitSet w := by
  rw [reservedBitSet_iff]
  cases i with
  | fadd d a b =>
    replace ho : fieldOp w = 1 := ho
    simp [rowFor, selects_fadd, ho, and_comm]
  | fsub d a b =>
    replace ho : fieldOp w = 2 := ho
    simp [rowFor, selects_fsub, ho, and_comm]
  | fmul d a b =>
    replace ho : fieldOp w = 3 := ho
    simp [rowFor, selects_fmul, ho, and_comm]
  | fsqr d a =>
    replace ho : fieldOp w = 4 := ho
    simp [rowFor, selects_fsqr, ho, and_comm, and_left_comm]
  | fneg d a =>
    replace ho : fieldOp w = 5 := ho
    simp [rowFor, selects_fneg, ho, and_comm, and_left_comm]
  | finv d a =>
    replace ho : fieldOp w = 6 := ho
    simp [rowFor, selects_finv, ho, and_comm, and_left_comm]
  | fcswap a b c =>
    replace ho : fieldOp w = 7 := ho
    simp [rowFor, selects_fcswap, ho, and_comm]
  | fld d s =>
    replace ho : fieldOp w = 8 := ho
    simp [rowFor, selects_fld, ho, and_comm, and_left_comm]
  | fst s a =>
    replace ho : fieldOp w = 9 := ho
    simp [rowFor, selects_fst, ho, and_comm, and_assoc]

/-- A word with a row is a command or has a must-be-zero bit set (R85, R87). -/
theorem decode_of_legal {w : Word} (ho : 1 ≤ w.toNat % 256 ∧ w.toNat % 256 ≤ 9) :
    (Spec.ReservedBitSet w ∧ decode w = .error .reservedField) ∨ (¬ Spec.ReservedBitSet w ∧ ∃ i, decode w = .ok i) := by
  cases h : rowOf w with
  | none => have := rowOf_eq_none_iff.1 h; omega
  | some r =>
    obtain ⟨row, i⟩ := r
    obtain ⟨rfl, hop, -⟩ := rowOf_eq_some_iff.1 h
    have hs := selects_iff_not_reserved hop
    rw [decode_of_row h]
    by_cases hr : Spec.ReservedBitSet w
    · exact .inl ⟨hr, if_neg fun h => hs.1 h hr⟩
    · exact .inr ⟨hr, _, if_pos (hs.2 hr)⟩

end Sys2Proof

namespace Sys2Proof.Spec

open Sys2Proof Sys2Proof.Laws

/-- Settles O18: the word is of the command's row and its fields are the command's operands. -/
theorem decodeOfEncode : Obligations.DecodeOfEncode := decode_encode

/-- Settles O19: what the row's mask leaves free is the operands, so the word is built from them. -/
theorem encodeOfDecode : Obligations.EncodeOfDecode := fun _ _ => encode_of_decode

/-- Settles O20, by whether the opcode is legal and whether a must-be-zero bit is set. -/
theorem decoderVerdicts : Obligations.DecoderVerdicts := by
  intro w
  by_cases ho : 1 ≤ w.toNat % 256 ∧ w.toNat % 256 ≤ 9
  · have hn : ¬ (w.toNat % 256 = 0x00 ∨ 0x0A ≤ w.toNat % 256) := by omega
    obtain ⟨hr, hd⟩ | ⟨hr, i, hd⟩ := decode_of_legal ho
    · simp [hd, hr, ho, hn]
    · simp [hd, hr, ho, hn]
  · have hn : w.toNat % 256 = 0x00 ∨ 0x0A ≤ w.toNat % 256 := by omega
    have hd := decode_of_no_row (rowOf_eq_none_iff.2 hn)
    simp [hd, ho, hn]

/-- Settles O21: a row that selects a word has the word's opcode, and no two rows have one opcode. -/
theorem opcodeRowsDoNotOverlap : Obligations.OpcodeRowsDoNotOverlap := by
  refine ⟨rfl, fun w r r' hr hr' hs hs' => ?_, fun w => ⟨fun ⟨i, hd⟩ => ?_, fun ⟨r, hr, hs⟩ => ?_⟩⟩
  · have hop : r.op = r'.op := (fieldOp_of_selects hr hs).symm.trans (fieldOp_of_selects hr' hs')
    exact opcodeTable_op_injective r hr r' hr' hop
  · exact ⟨rowFor i, rowFor_mem i, (decode_eq_ok_iff.1 hd).1⟩
  · obtain ⟨i, rfl, hi⟩ := exists_command_of_row hr w
    exact ⟨i, decode_eq_ok_iff.2 ⟨hs, hi⟩⟩

/-- Settles O22, by evaluation of the decoder on each word. -/
theorem wordsOfTheSpecDecode : Obligations.WordsOfTheSpecDecode := by
  and_intros <;> rfl

/-- Settles O23, by evaluation of the assembler on each line. -/
theorem exampleLinesAssemble : Obligations.ExampleLinesAssemble := by
  unfold Obligations.ExampleLinesAssemble
  decide +kernel

end Sys2Proof.Spec
end

section
/-! SUPPORT. What the expansions of the pseudo-instructions do (spec/30_encoding.md R90): O24. -/

namespace Sys2Proof.Machine

open Sys2Proof

@[simp] theorem regOf_val (r : Reg) : regOf r.val = some r := by simp [regOf]

@[simp] theorem slotOf_val (k : Slot) : slotOf k.val = some k := by simp [slotOf]

/-- FCSWAP with C = 1 exchanges the two registers, also when they are one (R12, R141). -/
theorem readF_swap (s : State) (a b : Reg) :
    ((s.writeF a (s.readF b)).writeF b (s.readF a)).readF a = s.readF b ∧
      ((s.writeF a (s.readF b)).writeF b (s.readF a)).readF b = s.readF a := by
  refine ⟨?_, State.readF_writeF_same _ _ _⟩
  by_cases h : a = b
  · rw [h, State.readF_writeF_same]
  · rw [State.readF_writeF_other _ _ h, State.readF_writeF_same]

theorem fieldSub_self_val (x : FieldValue) : (fieldSub x x).val = 0 := by
  rw [fieldSub_val, if_pos le_rfl, Nat.sub_self]

/-- A slot holds the integer that was written to it (R10, R11). -/
theorem readSlot_writeSlot {s : State} (h : s.opram.wf = true) (k : Slot) {v : Nat} (hv : v < 2 ^ 256) :
    (s.writeSlot k v).readSlot k = v := by
  rw [State.readSlot, State.writeSlot_opram, Memory.read_write_same h (slotAddress_in_opram k) hv]

@[simp] theorem State.readSlot_writeF (s : State) (i : Reg) (v : FieldValue) (k : Slot) :
    (s.writeF i v).readSlot k = s.readSlot k := rfl

/-- The canonical encoding of a field value loads as the value: its bit 255 is 0 and it is reduced (R150, R162). -/
theorem fieldOfBytes_self (x : FieldValue) : fieldOfBytes x.val = x := by
  have hx : x.val < 2 ^ 255 := x.isLt.trans (by decide)
  rw [fieldOfBytes, Nat.mod_eq_of_lt hx, reduce_self]

end Sys2Proof.Machine

namespace Sys2Proof.Spec

open Sys2Proof Sys2Proof.Machine

/-- `fmov` through a slot: FLD reads back what FST stored (R90). -/
theorem fst_then_fld {s : State} (h : s.opram.wf = true) (d a : Reg) (k : Slot) :
    ∃ t u, exec (.fst k a) s = .next t ∧ exec (.fld d k) t = .next u ∧
      u.readF d = s.readF a ∧ u.readSlot k = (s.readF a).val := by
  have hv : (s.readF a).val < 2 ^ 256 := (s.readF a).isLt.trans (by decide)
  have hk := readSlot_writeSlot h k hv
  refine ⟨_, _, exec_fst k a s, exec_fld d k _, ?_, ?_⟩
  · rw [State.readF_writeF_same, hk, fieldOfBytes_self]
  · rw [State.readSlot_writeF, hk]

/-- Settles O24, one pseudo-instruction at a time. -/
theorem pseudoInstructions : Obligations.PseudoInstructions := by
  refine ⟨⟨rfl, rfl, fun s => rfl⟩, fun a b => ⟨by simp [expandStmt], fun s => ?_⟩,
    fun d a => ⟨by simp [expandStmt], fun s => ?_⟩, fun d => ⟨by simp [expandStmt], fun s => ?_⟩,
    fun d a k => ⟨by simp [expandStmt], fun s h => fst_then_fld h d a k⟩⟩
  · exact ⟨_, exec_fcswap a b true s, readF_swap s a b⟩
  · refine ⟨_, exec_fadd d a a s, ?_⟩
    rw [State.readF_writeF_same, fieldAdd_val, Nat.two_mul]
  · refine ⟨_, exec_fsub d 0 0 s, ?_⟩
    rw [State.readF_writeF_same, fieldSub_self_val]

end Sys2Proof.Spec
end

section
/-! SUPPORT. Field values as residues: the commands of spec/40_field_ops.md compute in the field of the integers mod p, so
the laws of R109 and the inverse of R107 are those of that field. -/

namespace Sys2Proof.Machine

open Sys2Proof

/-- The residue class of a field value (spec/00_scope.md R3, R9). -/
def residue (x : FieldValue) : ZMod Config.fieldPrime := x.val

/-- A field value is the least residue of its class, so it is known by its class. -/
theorem residue_injective : Function.Injective residue := by
  intro x y h
  have h' : x.val % Config.fieldPrime = y.val % Config.fieldPrime := (ZMod.natCast_eq_natCast_iff' _ _ _).1 h
  rwa [← reduce_eq_iff, reduce_self, reduce_self] at h'

@[simp] theorem residue_reduce (n : Nat) : residue (reduce n) = n := by
  rw [residue, reduce_val, ZMod.natCast_mod]

@[simp] theorem residue_reduceInt (z : Int) : residue (reduceInt z) = z := by
  rw [residue, ← Int.cast_natCast, reduceInt_val, ZMod.intCast_mod]

theorem residue_eq_zero_iff (x : FieldValue) : residue x = 0 ↔ x.val = 0 := by
  rw [residue, ZMod.natCast_eq_zero_iff]
  exact ⟨fun h => Nat.eq_zero_of_dvd_of_lt h x.isLt, fun h => h ▸ dvd_zero _⟩

/-! ### The operations on classes -/

@[simp] theorem residue_fieldAdd (x y : FieldValue) : residue (fieldAdd x y) = residue x + residue y := by
  rw [fieldAdd, residue_reduce, Nat.cast_add]; rfl

@[simp] theorem residue_fieldMul (x y : FieldValue) : residue (fieldMul x y) = residue x * residue y := by
  rw [fieldMul, residue_reduce, Nat.cast_mul]; rfl

@[simp] theorem residue_fieldSub (x y : FieldValue) : residue (fieldSub x y) = residue x - residue y := by
  rw [fieldSub, residue_reduceInt, Int.cast_sub, Int.cast_natCast, Int.cast_natCast]; rfl

@[simp] theorem residue_fieldNeg (x : FieldValue) : residue (fieldNeg x) = -residue x := by
  rw [fieldNeg, residue_reduceInt, zero_sub, Int.cast_neg, Int.cast_natCast]; rfl

/-- The power p − 2 is the inverse, with 0 for 0: p is prime, and x^(p−1) = 1 for x ≠ 0 (Fermat; R107). -/
@[simp] theorem residue_fieldInv (x : FieldValue) : residue (fieldInv x) = (residue x)⁻¹ := by
  have : Fact (Nat.Prime Config.fieldPrime) := ⟨fieldPrime_prime⟩
  have hpow : residue (fieldInv x) = residue x ^ (Config.fieldPrime - 2) := by
    rw [residue, fieldInv_val, ZMod.natCast_mod, Nat.cast_pow]; rfl
  rw [hpow]
  by_cases hx : residue x = 0
  · rw [hx, inv_zero, zero_pow (by decide)]
  · apply eq_inv_of_mul_eq_one_left
    rw [← pow_succ]
    exact ZMod.pow_card_sub_one_eq_one hx

/-! ### The laws of R109 -/

theorem fieldAdd_comm (x y : FieldValue) : fieldAdd x y = fieldAdd y x :=
  residue_injective (by simp [add_comm])

theorem fieldMul_comm (x y : FieldValue) : fieldMul x y = fieldMul y x :=
  residue_injective (by simp [mul_comm])

theorem fieldAdd_assoc (x y z : FieldValue) : fieldAdd (fieldAdd x y) z = fieldAdd x (fieldAdd y z) :=
  residue_injective (by simp [add_assoc])

theorem fieldMul_assoc (x y z : FieldValue) : fieldMul (fieldMul x y) z = fieldMul x (fieldMul y z) :=
  residue_injective (by simp [mul_assoc])

theorem fieldMul_fieldAdd (x y z : FieldValue) :
    fieldMul x (fieldAdd y z) = fieldAdd (fieldMul x y) (fieldMul x z) :=
  residue_injective (by simp [mul_add])

theorem fieldAdd_zero (x : FieldValue) : fieldAdd x (reduce 0) = x :=
  residue_injective (by simp)

theorem fieldMul_one (x : FieldValue) : fieldMul x (reduce 1) = x :=
  residue_injective (by simp)

theorem fieldSub_eq_fieldAdd_fieldNeg (x y : FieldValue) : fieldSub x y = fieldAdd x (fieldNeg y) :=
  residue_injective (by simp [sub_eq_add_neg])

theorem fieldNeg_fieldNeg (x : FieldValue) : fieldNeg (fieldNeg x) = x :=
  residue_injective (by simp)

/-- Subtraction from a zero is negation (R106). -/
theorem fieldSub_of_val_eq_zero {z : FieldValue} (hz : z.val = 0) (x : FieldValue) : fieldSub z x = fieldNeg x :=
  residue_injective (by simp [(residue_eq_zero_iff z).2 hz])

/-! ### Inverses (R107) -/

/-- A product is 1 with the inverse and with no other value. -/
theorem fieldMul_eq_one_iff {x : FieldValue} (hx : x.val ≠ 0) (y : FieldValue) :
    fieldMul x y = reduce 1 ↔ y = fieldInv x := by
  have : Fact (Nat.Prime Config.fieldPrime) := ⟨fieldPrime_prime⟩
  have hx' : residue x ≠ 0 := fun h => hx ((residue_eq_zero_iff x).1 h)
  rw [← residue_injective.eq_iff, ← residue_injective.eq_iff (a := y), residue_fieldMul, residue_reduce, Nat.cast_one,
    residue_fieldInv, eq_comm (a := residue y)]
  exact mul_eq_one_iff_inv_eq₀ hx'

theorem fieldInv_fieldInv (x : FieldValue) : fieldInv (fieldInv x) = x := by
  have : Fact (Nat.Prime Config.fieldPrime) := ⟨fieldPrime_prime⟩
  exact residue_injective (by rw [residue_fieldInv, residue_fieldInv, inv_inv])

theorem fieldInv_val_eq_zero_iff (x : FieldValue) : (fieldInv x).val = 0 ↔ x.val = 0 := by
  have : Fact (Nat.Prime Config.fieldPrime) := ⟨fieldPrime_prime⟩
  rw [← residue_eq_zero_iff, residue_fieldInv, inv_eq_zero, residue_eq_zero_iff]

end Sys2Proof.Machine
end

section
/-! SUPPORT. The arithmetic commands, each with its frame, its encoding and its syntax (spec/40_field_ops.md R100 to R109): O4 to
O9, O13 and O14. -/

namespace Sys2Proof.Laws

open Sys2Proof Sys2Proof.Machine

/-- A word is of a row when the row's mask leaves the row's match of it (R84). -/
theorem selects_iff_and_mask {row : OpcodeRow} {w : Word} : row.selects w = true ↔ w &&& row.mask = row.pattern :=
  beq_iff_eq

/-- The command's word under the mask of the command's row is the row's match (R84). -/
theorem encode_and_mask (i : Instr) : encode i &&& (rowFor i).mask = (rowFor i).pattern :=
  selects_iff_and_mask.1 (encode_matchesRow i)

/-- A word of the command's row with the command's operands in its fields decodes to the command (R84, R85). -/
theorem decode_of_and_mask {w : Word} {i : Instr} (hw : w &&& (rowFor i).mask = (rowFor i).pattern)
    (hi : HasOperands w i) : decode w = .ok i :=
  decode_eq_ok_iff.2 ⟨selects_iff_and_mask.2 hw, hi⟩

/-- The words of a command with the operands D, A and B (format R3 of the spec). -/
theorem exists_decode_dab {c : Reg → Reg → Reg → Instr} {w : Word}
    (hw : w &&& (rowFor (c (fieldD w) (fieldA w) (fieldB w))).mask =
      (rowFor (c (fieldD w) (fieldA w) (fieldB w))).pattern)
    (hi : HasOperands w (c (fieldD w) (fieldA w) (fieldB w))) :
    ∃ d a b : Reg, decode w = .ok (c d a b) ∧
      d.val = w.toNat / 2 ^ 8 % 16 ∧ a.val = w.toNat / 2 ^ 12 % 16 ∧ b.val = w.toNat / 2 ^ 16 % 16 :=
  ⟨_, _, _, decode_of_and_mask hw hi, fieldD_val w, fieldA_val w, fieldB_val w⟩

/-- The words of a command with the operands D and A (format R2 of the spec). -/
theorem exists_decode_da {c : Reg → Reg → Instr} {w : Word}
    (hw : w &&& (rowFor (c (fieldD w) (fieldA w))).mask = (rowFor (c (fieldD w) (fieldA w))).pattern)
    (hi : HasOperands w (c (fieldD w) (fieldA w))) :
    ∃ d a : Reg, decode w = .ok (c d a) ∧ d.val = w.toNat / 2 ^ 8 % 16 ∧ a.val = w.toNat / 2 ^ 12 % 16 :=
  ⟨_, _, decode_of_and_mask hw hi, fieldD_val w, fieldA_val w⟩

end Sys2Proof.Laws

namespace Sys2Proof.Spec

open Sys2Proof Sys2Proof.Machine Sys2Proof.Laws

/-- The frame of a command of the family: it writes F[D] and nothing else (R100). -/
theorem changesOnlyRegisters_writeF (s : State) (d : Reg) (v : FieldValue) :
    ChangesOnlyRegisters (· = d) s (s.writeF d v) :=
  ⟨fun _ h => State.readF_writeF_other s v h, fun _ => rfl, sameControl_writeF s d v⟩

/-- The least non-negative residue, with p written out (R9). -/
theorem reduceInt_val_fieldPrime (z : Int) : ((reduceInt z).val : Int) = z % (2 ^ 255 - 19) := reduceInt_val z

/-- FINV's exponent p − 2 is 2^255 − 21 (R107). -/
theorem fieldInv_val_pow (x : FieldValue) : (fieldInv x).val = x.val ^ (2 ^ 255 - 21) % (2 ^ 255 - 19) := by
  have he : Config.fieldPrime - 2 = 2 ^ 255 - 21 := by decide
  rw [fieldInv_val, he]

/-- For x ≠ 0 the result of FINV is the unique y with x · y mod p = 1 (R107). -/
theorem mul_mod_eq_one_iff {x : FieldValue} (hx : x.val ≠ 0) (y : FieldValue) :
    x.val * y.val % (2 ^ 255 - 19) = 1 ↔ y = fieldInv x := by
  rw [← fieldMul_eq_one_iff hx, fieldMul, reduce_eq_iff, Nat.mod_eq_of_lt (by decide : 1 < Config.fieldPrime)]

/-- Settles O4: F[D] is written with the reduced sum, and the word's row and operands say what it decodes to. -/
theorem faddAddsModP : Obligations.FaddAddsModP := by
  refine ⟨fun d a b s => ⟨_, exec_fadd d a b s, ?_, changesOnlyRegisters_writeF _ _ _⟩,
    fun _ hw => exists_decode_dab (c := .fadd) hw ⟨rfl, rfl, rfl⟩,
    fun d a b => ⟨encode_and_mask (.fadd d a b), ParsesBack.fadd d a b⟩⟩
  rw [State.readF_writeF_same, fieldAdd_val]

/-- Settles O5: F[D] is written with the least non-negative residue of the difference. -/
theorem fsubSubtractsModP : Obligations.FsubSubtractsModP := by
  refine ⟨fun d a b s => ⟨_, exec_fsub d a b s, ?_, changesOnlyRegisters_writeF _ _ _⟩,
    fun _ hw => exists_decode_dab (c := .fsub) hw ⟨rfl, rfl, rfl⟩,
    fun d a b => ⟨encode_and_mask (.fsub d a b), ParsesBack.fsub d a b⟩⟩
  rw [State.readF_writeF_same, fieldSub, reduceInt_val_fieldPrime]

/-- Settles O6: F[D] is written with the reduced exact product. -/
theorem fmulMultipliesModP : Obligations.FmulMultipliesModP := by
  refine ⟨fun d a b s => ⟨_, exec_fmul d a b s, ?_, changesOnlyRegisters_writeF _ _ _⟩,
    fun _ hw => exists_decode_dab (c := .fmul) hw ⟨rfl, rfl, rfl⟩,
    fun d a b => ⟨encode_and_mask (.fmul d a b), ParsesBack.fmul d a b⟩⟩
  rw [State.readF_writeF_same, fieldMul_val]

/-- Settles O7: a square is the product of the register by itself, so FMUL writes the same value. -/
theorem fsqrSquaresModP : Obligations.FsqrSquaresModP := by
  refine ⟨fun d a s => ⟨_, exec_fsqr d a s, ?_, changesOnlyRegisters_writeF _ _ _, exec_fmul d a a s⟩,
    fun _ hw => exists_decode_da (c := .fsqr) hw ⟨rfl, rfl⟩,
    fun d a => ⟨encode_and_mask (.fsqr d a), ParsesBack.fsqr d a⟩⟩
  rw [State.readF_writeF_same, fieldSqr_val]

/-- Settles O8: negation in the field of residues is an involution, and subtraction from 0. -/
theorem fnegNegatesModP : Obligations.FnegNegatesModP := by
  refine ⟨fun d a s => ⟨_, exec_fneg d a s, ?_, changesOnlyRegisters_writeF _ _ _,
      ⟨_, exec_fneg d d _, ?_⟩, fun z hz => ?_⟩,
    fun _ hw => exists_decode_da (c := .fneg) hw ⟨rfl, rfl⟩,
    fun d a => ⟨encode_and_mask (.fneg d a), ParsesBack.fneg d a⟩⟩
  · rw [State.readF_writeF_same, fieldNeg, reduceInt_val_fieldPrime]
  · rw [State.readF_writeF_same, State.readF_writeF_same, fieldNeg_fieldNeg]
  · rw [exec_fsub, fieldSub_of_val_eq_zero hz]

/-- Settles O9: p is prime, so the power p − 2 is the inverse in the field of residues. -/
theorem finvInvertsModP : Obligations.FinvInvertsModP := by
  refine ⟨fun d a s => ⟨_, exec_finv d a s, ?_, changesOnlyRegisters_writeF _ _ _, fun hx y => ?_, ?_,
      _, exec_finv d d _, ?_⟩,
    fun _ hw => exists_decode_da (c := .finv) hw ⟨rfl, rfl⟩,
    fun d a => ⟨encode_and_mask (.finv d a), ParsesBack.finv d a⟩⟩
  · rw [State.readF_writeF_same, fieldInv_val_pow]
  · rw [State.readF_writeF_same, mul_mod_eq_one_iff hx]
  · rw [State.readF_writeF_same, fieldInv_val_eq_zero_iff]
  · rw [State.readF_writeF_same, State.readF_writeF_same, fieldInv_fieldInv]

/-- Settles O13, from what any command can do. -/
theorem noOperandMakesACommandFail : Obligations.NoOperandMakesACommandFail := by
  intro i s
  obtain ⟨t, ht, hcontrol, -⟩ := exec_spec i s
  exact ⟨t, ht, hcontrol⟩

/-- Settles O14: the laws are those of the field of residues mod p. -/
theorem commandsObeyTheFieldLaws : Obligations.CommandsObeyTheFieldLaws :=
  ⟨fun d a b s => ⟨exec_fadd d a b s, exec_fsub d a b s, exec_fmul d a b s, exec_fneg d a s, exec_finv d a s⟩,
    fun x y z => ⟨fieldAdd_comm x y, fieldMul_comm x y, fieldAdd_assoc x y z, fieldMul_assoc x y z,
      fieldMul_fieldAdd x y z, fieldAdd_zero x, fieldMul_one x, fieldSub_eq_fieldAdd_fieldNeg x y,
      fun hx => (fieldMul_eq_one_iff hx _).2 rfl⟩⟩

end Sys2Proof.Spec
end

section
/-! SUPPORT. The conditional swap with its frame, its encoding and its syntax (spec/41_cswap.md R141): O10. -/

namespace Sys2Proof.Spec

open Sys2Proof Sys2Proof.Machine Sys2Proof.Laws

/-- Frames compose: FCSWAP is two register writes, and each has its own frame. -/
theorem ChangesOnlyRegisters.trans {allowed allowed' : Reg → Prop} {s t u : State}
    (h : ChangesOnlyRegisters allowed s t) (h' : ChangesOnlyRegisters allowed' t u) :
    ChangesOnlyRegisters (fun i => allowed i ∨ allowed' i) s u := by
  obtain ⟨hregs, hbytes, hcontrol⟩ := h
  obtain ⟨hregs', hbytes', hcontrol'⟩ := h'
  refine ⟨fun i hi => ?_, fun n => (hbytes' n).trans (hbytes n), hcontrol.trans hcontrol'⟩
  rw [not_or] at hi
  exact (hregs' i hi.2).trans (hregs i hi.1)

/-- Settles O10: both writes of the swap store values read before them, and with C = 0 there is no write. -/
theorem fcswapSwapsWhenConditionIsOne : Obligations.FcswapSwapsWhenConditionIsOne := by
  refine ⟨fun a b s => ?_, fun a b s => exec_fcswap a b false s,
    fun w hw => ⟨fieldA w, fieldB w, fieldC w, ?_, fieldA_val w, fieldB_val w, fieldC_toNat w⟩,
    fun a b c => ⟨encode_and_mask (.fcswap a b c), ParsesBack.fcswap a b c⟩⟩
  · obtain ⟨ha, hb⟩ := readF_swap s a b
    exact ⟨_, exec_fcswap a b true s, ha, hb,
      (changesOnlyRegisters_writeF s a _).trans (changesOnlyRegisters_writeF _ b _)⟩
  · exact decode_of_and_mask (i := .fcswap (fieldA w) (fieldB w) (fieldC w)) hw ⟨rfl, rfl, rfl⟩

end Sys2Proof.Spec
end

section
/-! SUPPORT. Byte serialization (spec/42_serialization.md R150 to R162): the integer of a slot against its bytes, what a store to
a slot changes, and the two commands with their frames, encodings and syntax: O11, O12, O15, O16 and O17. -/

namespace Sys2Proof.Machine

open Sys2Proof

/-! ### The integer and its bytes -/

/-- Bit i of a little-endian integer is bit i mod 8 of byte i / 8 (R10). -/
theorem Memory.testBit_read (m : Memory) (addr : Nat) {n i : Nat} (hi : i < 8 * n) :
    (m.read addr n).testBit i = (m.readByte (addr + i / 8)).getLsbD (i % 8) := by
  have hlt : i % 8 < 8 := Nat.mod_lt i (by decide)
  rw [← Memory.read_byte m addr n (i / 8) (by omega), BitVec.getLsbD_ofNat, Nat.testBit_shiftRight, Nat.div_add_mod]
  simp [hlt]

/-- Storing what is there changes nothing: the canonical form is unique. -/
theorem Memory.write_read_same {m : Memory} (h : m.wf = true) {addr n : Nat} (ha : addr + n ≤ Config.opramBytes) :
    m.write addr n (m.read addr n) = m := by
  refine Memory.wf_ext (Memory.write_wf h ha _) h fun x => ?_
  rw [Memory.readByte_write h ha]
  split
  case isTrue hx => rw [Memory.read_byte m addr n _ (by omega), Nat.add_sub_cancel' hx.1]
  case isFalse => rfl

/-- A slot's first byte is at 32 · S (R59). -/
theorem slotAddress_eq (k : Slot) : slotAddress k = 32 * k.val := rfl

theorem State.readSlot_congr {s t : State} (h : s.opram = t.opram) (k : Slot) : s.readSlot k = t.readSlot k := by
  rw [State.readSlot, State.readSlot, h]

/-- Two slots hold the same integer exactly when they hold the same 32 bytes (R11). -/
theorem readSlot_eq_iff_bytes {s t : State} {k : Slot} : s.readSlot k = t.readSlot k ↔
    ∀ j, j < 32 → s.opram.readByte (slotAddress k + j) = t.opram.readByte (slotAddress k + j) := by
  constructor
  · intro h j hj
    rw [← Memory.read_byte s.opram (slotAddress k) Config.slotBytes j hj,
      ← Memory.read_byte t.opram (slotAddress k) Config.slotBytes j hj]
    exact congrArg (fun n => BitVec.ofNat 8 (n >>> (8 * j))) h
  · intro h
    rw [State.readSlot_eq_sum, State.readSlot_eq_sum]
    exact Finset.sum_congr rfl fun j hj => by rw [h j (Finset.mem_range.1 hj)]

/-! ### Bit 255 and canonical integers -/

/-- Slots that differ at most in bit 7 of byte 31 hold the same integer mod 2^255 (R150, R151). -/
theorem readSlot_mod_eq {s t : State} {k : Slot}
    (hlow : ∀ j, j < 31 → s.opram.readByte (slotAddress k + j) = t.opram.readByte (slotAddress k + j))
    (hlast : ∀ i, i < 7 → (s.opram.readByte (slotAddress k + 31)).getLsbD i =
      (t.opram.readByte (slotAddress k + 31)).getLsbD i) :
    s.readSlot k % 2 ^ 255 = t.readSlot k % 2 ^ 255 := by
  refine Nat.eq_of_testBit_eq fun i => ?_
  rw [Nat.testBit_mod_two_pow, Nat.testBit_mod_two_pow]
  by_cases hi : i < 255
  · have hbit : i < 8 * Config.slotBytes := hi.trans (by decide)
    rw [State.readSlot, State.readSlot, Memory.testBit_read _ _ hbit, Memory.testBit_read _ _ hbit]
    by_cases hbyte : i / 8 < 31
    · rw [hlow _ hbyte]
    · have h31 : i / 8 = 31 := by omega
      rw [h31, hlast (i % 8) (by omega)]
  · simp [hi]

/-- Bit 7 of byte 31 of an integer below 2^255 is 0 (R160). -/
theorem byte31_bit7_of_lt {v : Nat} (hv : v < 2 ^ 255) : (BitVec.ofNat 8 (v >>> (8 * 31)))[7] = false := by
  rw [← BitVec.getLsbD_eq_getElem, BitVec.getLsbD_ofNat, Nat.testBit_shiftRight, Nat.testBit_lt_two_pow hv, Bool.and_false]

theorem fieldValue_lt_two_pow_255 (x : FieldValue) : x.val < 2 ^ 255 := x.isLt.trans (by decide)

theorem fieldValue_lt_two_pow_256 (x : FieldValue) : x.val < 2 ^ 256 := x.isLt.trans (by decide)

/-- FLD's reduction leaves an integer as it is exactly when it is canonical (R162). -/
theorem fieldOfBytes_val_eq_self_iff {n : Nat} : (fieldOfBytes n).val = n ↔ n < 2 ^ 255 - 19 := by
  constructor
  · intro h
    rw [← h]
    exact (fieldOfBytes n).isLt
  · intro h
    exact congrArg Fin.val (fieldOfBytes_self ⟨n, h⟩)

/-! ### Stores to a slot -/

/-- What a store to a slot changes: the slot's 32 bytes, and no other byte of OPRAM (R160). -/
theorem writeSlot_bytes {s : State} (h : s.opram.wf = true) (k : Slot) (v : Nat) :
    (∀ j, j < 32 → (s.writeSlot k v).opram.readByte (slotAddress k + j) = BitVec.ofNat 8 (v >>> (8 * j))) ∧
      ∀ x, x < slotAddress k ∨ slotAddress k + 32 ≤ x → (s.writeSlot k v).opram.readByte x = s.opram.readByte x := by
  rw [State.writeSlot_opram]
  exact Memory.write_bytes h (slotAddress_in_opram k) v

/-- A store to a slot leaves OPRAM as it was exactly when it stores what the slot held. -/
theorem writeSlot_opram_eq_iff {s : State} (h : s.opram.wf = true) {k : Slot} {v : Nat} (hv : v < 2 ^ 256) :
    (s.writeSlot k v).opram = s.opram ↔ v = s.readSlot k := by
  constructor
  · intro hsame
    rw [← State.readSlot_congr hsame k, readSlot_writeSlot h k hv]
  · intro hheld
    rw [hheld, State.writeSlot_opram, State.readSlot, Memory.write_read_same h (slotAddress_in_opram k)]

end Sys2Proof.Machine

namespace Sys2Proof.Spec

open Sys2Proof Sys2Proof.Machine Sys2Proof.Laws

/-- Settles O11: F[D] is written with the reduced integer of the slot, which is the little-endian sum of its bytes. -/
theorem fldLoadsTheSlotModP : Obligations.FldLoadsTheSlotModP := by
  refine ⟨fun d k s => ⟨_, exec_fld d k s, ?_, changesOnlyRegisters_writeF _ _ _⟩,
    fun w hw => ⟨fieldD w, fieldS w, ?_, fieldD_val w, fieldS_val w⟩,
    fun d k => ⟨encode_and_mask (.fld d k), ParsesBack.fld d k⟩⟩
  · rw [State.readF_writeF_same, fieldOfBytes_val, State.readSlot_eq_sum, slotAddress_eq]
  · exact decode_of_and_mask (i := .fld (fieldD w) (fieldS w)) hw ⟨rfl, rfl⟩

/-- Settles O12: the bytes are those of a multi-byte write, and a field value has no bit 255. -/
theorem fstStoresTheCanonicalBytes : Obligations.FstStoresTheCanonicalBytes := by
  refine ⟨fun k a s h => ?_, fun w hw => ⟨fieldS w, fieldA w, ?_, fieldS_val w, fieldA_val w⟩,
    fun k a => ⟨encode_and_mask (.fst k a), ParsesBack.fst k a⟩⟩
  · obtain ⟨hbytes, hframe⟩ := writeSlot_bytes h k (s.readF a).val
    refine ⟨_, exec_fst k a s, slotAddress_eq k, hbytes, ?_, hframe, fun i => State.readF_writeSlot _ _ _ i,
      sameControl_writeSlot _ _ _⟩
    rw [hbytes 31 (by decide), byte31_bit7_of_lt (fieldValue_lt_two_pow_255 _)]
  · exact decode_of_and_mask (i := .fst (fieldS w) (fieldA w)) hw ⟨rfl, rfl⟩

/-- Settles O15: what FLD loads depends on the slot's integer mod 2^255 only. -/
theorem fldAcceptsEveryByteString : Obligations.FldAcceptsEveryByteString := by
  refine ⟨fun d k s => ⟨_, exec_fld d k s, sameControl_writeF _ _ _⟩,
    fun d k s s' hlow hlast => ⟨_, _, exec_fld d k s, exec_fld d k s', ?_⟩,
    fun d k s v hv => ⟨_, exec_fld d k s, ?_⟩⟩
  · rw [State.readF_writeF_same, State.readF_writeF_same, fieldOfBytes, fieldOfBytes, readSlot_mod_eq hlow hlast]
  · rw [State.readF_writeF_same, hv, fieldOfBytes_self]

/-- Settles O16: the stored slots hold the two values, and equal integers are equal bytes. -/
theorem equalValuesHaveEqualBytes : Obligations.EqualValuesHaveEqualBytes := by
  refine fun s a b k h => ⟨_, _, exec_fst k a s, exec_fst k b s, ?_⟩
  rw [← readSlot_eq_iff_bytes, readSlot_writeSlot h k (fieldValue_lt_two_pow_256 _),
    readSlot_writeSlot h k (fieldValue_lt_two_pow_256 _), Fin.ext_iff]

/-- Settles O17: FLD then FST stores the reduced integer of the slot, which is the integer itself exactly when it is canonical. -/
theorem serializationRoundTrips : Obligations.SerializationRoundTrips := by
  refine ⟨fun s a d k h => ?_, fun s d k h => ⟨_, _, exec_fld d k s, exec_fst k d _, ?_⟩⟩
  · obtain ⟨t, u, ht, hu, hvalue, -⟩ := fst_then_fld h d a k
    exact ⟨t, u, ht, hu, hvalue⟩
  · have hloaded : (s.writeF d (fieldOfBytes (s.readSlot k))).opram.wf = true := h
    have hv := fieldValue_lt_two_pow_256 (fieldOfBytes (s.readSlot k))
    rw [State.readF_writeF_same, readSlot_writeSlot hloaded k hv, fieldOfBytes_val]
    refine ⟨rfl, (writeSlot_opram_eq_iff hloaded hv).trans ?_⟩
    rw [State.readSlot_writeF, fieldOfBytes_val_eq_self_iff]

end Sys2Proof.Spec
end

section
/-! SUPPORT. CMD writes and the error record (spec/60_exceptions.md R170 to R174, R182, R183) and `irq` (R180): O30 to O33, O51
and O52. -/

namespace Sys2Proof.Machine

open Sys2Proof Sys2Proof.Spec

section
variable {s t : State} {w : Word}

/-! ### The outcomes of a CMD write that is not accepted (R170), one equation each; `step_accepts` is the other one -/

theorem onCmdWrite_of_err (he : s.err = true) : s.onCmdWrite w = s := by
  rw [State.onCmdWrite, if_pos he]

theorem onCmdWrite_of_busy {v : Word} {n : Nat} (he : s.err = false) (hb : s.unit = .busy v n) :
    s.onCmdWrite w = s.recordError .cmdBusy w := by
  simp [State.onCmdWrite, he, hb]

theorem onCmdWrite_of_error {e : CommandError} (he : s.err = false) (hu : s.unit = .idle) (hd : decode w = .error e) :
    s.onCmdWrite w = (s.withDone false).recordError e w := by
  simp [State.onCmdWrite, he, hu, hd]

theorem step_cmdWrite {rest : List HostMove} (hs : s.stalled = none) (hi : s.inbox = writeTo 0x200 w :: rest) :
    step s = .next (((s.withInbox rest).onCmdWrite w).respond ⟨none, false⟩) :=
  step_write hs hi (by decide) (.inr (by decide))

theorem step_statusWrite {rest : List HostMove} (hs : s.stalled = none) (hi : s.inbox = writeTo 0x204 w :: rest) :
    step s = .next (((s.withInbox rest).writeStatus w).respond ⟨none, false⟩) :=
  step_write hs hi (by decide) (.inr (by decide))

/-- A CMD write with ERR set is answered and has no effect (R174). -/
theorem step_cmdWrite_discarded {rest : List HostMove} (he : s.err = true) (hs : s.stalled = none)
    (hi : s.inbox = writeTo 0x200 w :: rest) : step s = .next ((s.withInbox rest).respond ⟨none, false⟩) := by
  rw [step_cmdWrite hs hi, onCmdWrite_of_err (s := s.withInbox rest) he]

/-- A CMD write while BUSY records CMD_BUSY and has no other effect (R172). -/
theorem step_cmdWrite_busy {v : Word} {n : Nat} {rest : List HostMove} (he : s.err = false) (hb : s.unit = .busy v n)
    (hs : s.stalled = none) (hi : s.inbox = writeTo 0x200 w :: rest) :
    step s = .next (((s.withInbox rest).recordError .cmdBusy w).respond ⟨none, false⟩) := by
  rw [step_cmdWrite hs hi, onCmdWrite_of_busy (s := s.withInbox rest) he hb]

/-- A CMD write of a word the decoder refuses, in IDLE, clears DONE and records the cause (R170, R182). -/
theorem step_cmdWrite_error {e : CommandError} {rest : List HostMove} (hd : decode w = .error e) (hu : s.unit = .idle)
    (he : s.err = false) (hs : s.stalled = none) (hi : s.inbox = writeTo 0x200 w :: rest) :
    step s = .next ((((s.withInbox rest).withDone false).recordError e w).respond ⟨none, false⟩) := by
  rw [step_cmdWrite hs hi, onCmdWrite_of_error (s := s.withInbox rest) he hu hd]

/-! ### The running command -/

theorem runFor_one (h : step s = .next t) : runFor 1 s = .next t := runFor_next h (runFor_zero t)

theorem runFor_two {u : State} (h : step s = .next u) (h' : step u = .next t) : runFor 2 s = .next t :=
  runFor_next h (runFor_one h')

/-- The last cycle of a command completes it (R25, R27). -/
theorem step_lastTick {n : Nat} {i : Instr} {rest : List HostMove} (hd : decode w = .ok i) (hb : s.unit = .busy w n)
    (hn : n ≤ 1) (hi : s.inbox = .tick :: rest) : ∃ t, step s = .next t ∧ Completes w (s.withInbox rest) t := by
  obtain ⟨t, ht⟩ := complete_of_decode hd (s.withInbox rest)
  have hc := complete_next.1 ht
  exact ⟨t, (StepCase.lastTick w n rest hb hn hi hc).step_eq, hc⟩

/-- Exec reads the field registers and OPRAM only (R26). -/
theorem exec_of_same_data {i : Instr} {s' : State} (hf : s'.f = s.f) (hm : s'.opram = s.opram) (h : exec i s = .next t) :
    ∃ t', exec i s' = .next t' ∧ t'.f = t.f ∧ t'.opram = t.opram := by
  obtain ⟨f, m⟩ := s
  obtain ⟨f', m'⟩ := s'
  obtain rfl : f' = f := hf
  obtain rfl : m' = m := hm
  cases i with
  | fcswap a b c => cases h; cases c <;> exact ⟨_, rfl, rfl, rfl⟩
  | _ => cases h; exact ⟨_, rfl, rfl, rfl⟩

/-- The only access that stops a BUSY unit: a CTRL write with SRST (R201). -/
theorem perform_stops_unit {a : Access} {n : Nat} (hb : s.unit = .busy w n) (h : (s.perform a).unit = .idle) :
    ∃ v : Word, a = ⟨0x210, 4, .write v⟩ ∧ v[2] = true := by
  cases perform_cases a s with
  | answers r ht => rw [ht, State.respond_unit, hb] at h; cases h
  | stores v hk ho hal ht => rw [ht, State.respond_unit, State.withOpram_unit, hb] at h; cases h
  | status v ha ht => rw [ht, State.respond_unit, State.writeStatus_unit, hb] at h; cases h
  | control v ha ht =>
    cases hv : v[2] with
    | true => exact ⟨v, ha, hv⟩
    | false => rw [ht, State.writeCtrl_enables _ _ hv, State.respond_unit, State.withEnables_unit, hb] at h; cases h
  | command v ha ht =>
    rw [ht, State.respond_unit] at h
    cases he : s.err with
    | true => rw [onCmdWrite_of_err he, hb] at h; cases h
    | false => rw [onCmdWrite_of_busy he hb, State.recordError_unit, hb] at h; cases h

/-- No reset is among the moves to come: neither `rst` nor a CTRL write with SRST = 1 (R200, R201). -/
def NoResetIn (moves : List HostMove) : Prop :=
  (∀ during, HostMove.rst during ∉ moves) ∧ ∀ v : Word, v[2] = true → writeTo 0x210 v ∉ moves

theorem NoResetIn.tail {m : HostMove} {rest : List HostMove} (h : NoResetIn (m :: rest)) : NoResetIn rest :=
  ⟨fun d hd => h.1 d (.tail _ hd), fun v hv hm => h.2 v hv (.tail _ hm)⟩

/-- The unit keeps the word w, and the data, up to a step that is the completion of the command i (R26, R27). -/
def CompletesLater (w : Word) (i : Instr) (s : State) : Prop :=
  ∃ k u v, runFor k s = .next u ∧ (∃ n, u.unit = .busy w n) ∧ u.f = s.f ∧ u.opram = s.opram ∧
    step u = .next v ∧ thenCompleted (exec i (u.withInbox v.inbox)) = .next v

variable {i : Instr} {n : Nat}

theorem CompletesLater.of_now (moves : List HostMove) (hd : decode w = .ok i) (hb : s.unit = .busy w n)
    (h : ∀ t, Completes w (s.withInbox moves) t → StepCase s t) : CompletesLater w i s := by
  obtain ⟨t, ht⟩ := complete_of_decode hd (s.withInbox moves)
  have hc := complete_next.1 ht
  obtain ⟨j, w', n', hb', hd', he⟩ := hc.completesHeld hb
  obtain ⟨rfl, rfl⟩ : w' = w ∧ n' = n := by simpa using hb'.symm.trans hb
  obtain rfl : j = i := by simpa using hd'.symm.trans hd
  exact ⟨0, s, t, runFor_zero s, ⟨n', hb⟩, rfl, rfl, (h t hc).step_eq, he⟩

theorem CompletesLater.of_step (hst : step s = .next t) (hf : t.f = s.f) (hm : t.opram = s.opram)
    (h : CompletesLater w i t) : CompletesLater w i s := by
  obtain ⟨k, u, v, hr, hb, huf, hum, hsv, he⟩ := h
  exact ⟨k + 1, u, v, runFor_next hst hr, hb, huf.trans hf, hum.trans hm, hsv, he⟩

/-- A held command completes unless a reset comes, by induction on the moves to come (R27, R170). -/
theorem completesLater_of_noReset (hd : decode w = .ok i) {moves : List HostMove} (hr : NoResetIn moves)
    (hb : s.unit = .busy w n) (hi : s.inbox = moves) : CompletesLater w i s := by
  induction moves generalizing s n with
  | nil => exact .of_now s.inbox hd hb fun t ht => .completes w n hb (.inl hi) ht
  | cons m rest ih =>
    cases m with
    | tick =>
      by_cases hn : n ≤ 1
      · exact .of_now rest hd hb fun t ht => .lastTick w n rest hb hn hi ht
      · exact .of_step (StepCase.busyTick w n rest hb (by omega) hi rfl).step_eq rfl rfl (ih hr.tail rfl rfl)
    | awaitIdle => exact .of_now rest hd hb fun t ht => .awaited w n rest hb hi ht
    | rst d => exact absurd (.head _) (hr.1 d)
    | access a =>
      cases hs : s.stalled with
      | some b =>
        exact .of_now s.inbox hd hb fun t ht => .completes w n hb (.inr ⟨b, a, rest, hs, hi⟩) ht
      | none =>
        cases hm : s.mustStall a with
        | true => exact .of_step (StepCase.stalls a rest hs hi hm rfl).step_eq rfl rfl (ih hr.tail hb rfl)
        | false =>
          obtain hu | ⟨hf, ho, hu⟩ := perform_while_busy (s := s.withInbox rest) hb hm
          · obtain ⟨v, rfl, hv⟩ := perform_stops_unit (s := s.withInbox rest) hb hu
            exact absurd (.head _) (hr.2 v hv)
          · exact .of_step (step_access hs hi hm) hf ho (ih hr.tail (hu.trans hb) (by simp))

end

/-! ### What a step does to the error record -/

/-- The record stays as it is. -/
structure SameRecord (s t : State) : Prop where
  err : t.err = s.err
  errCause : t.errCause = s.errCause
  errCmd : t.errCmd = s.errCmd

/-- The moves that clear the record: a STATUS write with bit 2 set, a CTRL write with SRST, the reset input (R174). -/
def ClearsRecord (m : HostMove) : Prop :=
  (∃ w : Word, m = writeTo 0x204 w ∧ w[2] = true) ∨ (∃ w : Word, m = writeTo 0x210 w ∧ w[2] = true) ∨
    ∃ during, m = .rst during

section
variable {s t : State}

/-- What an access does to the record: nothing, it clears it, or it is a CMD write. -/
theorem perform_record (a : Access) (s : State) : SameRecord s (s.perform a) ∨
    (ClearsRecord (.access a) ∧ (s.perform a).err = false) ∨
      ∃ w, a = ⟨0x200, 4, .write w⟩ ∧ s.perform a = (s.onCmdWrite w).respond ⟨none, false⟩ := by
  cases perform_cases a s with
  | answers r ht => rw [ht]; exact .inl ⟨rfl, rfl, rfl⟩
  | stores w hk ho hal ht => rw [ht]; exact .inl ⟨rfl, rfl, rfl⟩
  | command w ha ht => exact .inr (.inr ⟨w, ha, ht⟩)
  | status w ha ht =>
    rw [ht, ha]
    cases hw : w[2] with
    | true => exact .inr (.inl ⟨.inl ⟨w, rfl, hw⟩, by simp [hw]⟩)
    | false => exact .inl ⟨by simp [hw], by simp [hw], by simp [hw]⟩
  | control w ha ht =>
    rw [ht, ha]
    cases hw : w[2] with
    | true => exact .inr (.inl ⟨.inr (.inl ⟨w, rfl, hw⟩), by rw [State.writeCtrl_srst _ _ hw]; rfl⟩)
    | false => rw [State.writeCtrl_enables _ _ hw]; exact .inl ⟨rfl, rfl, rfl⟩

theorem releaseHeld_record {a : Access} (ho : windowTarget a.offset = .opram) : SameRecord s (s.releaseHeld a) := by
  unfold State.releaseHeld
  obtain ⟨r, ht⟩ | ⟨w, -, -, ht⟩ := perform_opram ho (s.withStalled none)
  · rw [ht]; exact ⟨rfl, rfl, rfl⟩
  · rw [ht]; exact ⟨rfl, rfl, rfl⟩

/-- What a step does to the record: nothing, it takes a move that clears it, or it takes a CMD write. -/
theorem step_record (h : Inv s) (hst : step s = .next t) : SameRecord s t ∨
    (∃ m rest, s.inbox = m :: rest ∧ ClearsRecord m ∧ t.err = false) ∨
      ∃ w rest, s.inbox = writeTo 0x200 w :: rest ∧ t = ((s.withInbox rest).onCmdWrite w).respond ⟨none, false⟩ := by
  cases step_effect hst with
  | completes i hc =>
    obtain ⟨w, n, -, hc⟩ := hc.completes
    obtain ⟨-, -, he, hcause, hcmd, -⟩ := hc.control
    exact .inl ⟨he, hcause, hcmd⟩
  | releases a hu hs ht => rw [ht]; exact .inl (releaseHeld_record (h.holds_opram_access a hs))
  | performs a rest hs hi hm ht =>
    subst ht
    obtain hk | ⟨hc, he⟩ | ⟨w, rfl, hw⟩ := perform_record a (s.withInbox rest)
    · exact .inl ⟨hk.err, hk.errCause, hk.errCmd⟩
    · exact .inr (.inl ⟨_, rest, hi, hc, he⟩)
    · exact .inr (.inr ⟨w, rest, hi, hw⟩)
  | resets during rest hi ht =>
    exact .inr (.inl ⟨_, rest, hi, .inr (.inr ⟨during, rfl⟩), by rw [ht]; cases during <;> rfl⟩)
  | passes hp => exact .inl ⟨hp.err, hp.errCause, hp.errCmd⟩

end
end Sys2Proof.Machine

namespace Sys2Proof.Spec

open Sys2Proof Sys2Proof.Machine

/-- Settles O30: the decoder's verdict by the word's bits, and for an accepted word `completesLater_of_noReset` after the
step of its acceptance. -/
theorem cmdWriteOutcomes : Obligations.CmdWriteOutcomes := by
  intro s w rest hs hi
  refine ⟨fun he => step_cmdWrite_discarded he hs hi, fun he => ⟨fun v n hb => step_cmdWrite_busy he hb hs hi,
    fun hu ho => ?_, fun hu ho hr => ?_, fun hu ho hr => ?_⟩⟩
  · exact step_cmdWrite_error (decode_of_no_row (rowOf_eq_none_iff.2 ho)) hu he hs hi
  · obtain ⟨-, hd⟩ | ⟨hn, -⟩ := decode_of_legal ho
    · exact step_cmdWrite_error hd hu he hs hi
    · exact absurd hr hn
  · obtain ⟨hy, -⟩ | ⟨-, i, hd⟩ := decode_of_legal ho
    · exact absurd hy hr
    · have hst := step_accepts hd hu he hs hi
      refine ⟨i, hd, hst, fun hrst hctrl => ?_⟩
      obtain ⟨k, u, v, hrun, hlater⟩ := completesLater_of_noReset
        (s := (((s.withInbox rest).withDone false).withUnit (.busy w (latencyOf i))).respond ⟨none, false⟩)
        hd ⟨hrst, hctrl⟩ rfl rfl
      exact ⟨k, u, v, (runFor_succ hst).trans hrun, hlater⟩

/-- Settles O31: the CMD write changes the record only, and Exec does not read the record. -/
theorem cmdBusyLeavesTheRunningCommand : Obligations.CmdBusyLeavesTheRunningCommand := by
  refine ⟨fun _ _ _ => rfl, fun s w w' n i hd hb he hs hi => ?_⟩
  obtain ⟨u, hu, -⟩ := exec_spec i s
  have hst := step_cmdWrite_busy he hb hs hi
  obtain ⟨t, ht, hf, hm⟩ := exec_of_same_data (s := s)
    (s' := ((s.withInbox []).recordError .cmdBusy w).respond ⟨none, false⟩) rfl rfl hu
  obtain ⟨hidle, hdone, herr, hcause, hcmd, -⟩ := Completes.control ⟨i, t, hd, ht, rfl⟩
  exact ⟨_, u, _, runFor_two hst (step_completes hd hb rfl ht), hidle, hdone, herr, hcause,
    hcmd, hu, hf, hm, hst, hb, rfl, rfl, rfl, rfl⟩

/-- Settles O32: of the effects of a step on the record, a CMD write has none while ERR is set. -/
theorem errorRecordIsSticky : Obligations.ErrorRecordIsSticky := by
  refine ⟨fun s w rest he hs hi => step_cmdWrite_discarded he hs hi, fun s t h hst hs ht => ?_,
    fun s t h hst hs ht => ?_⟩
  · obtain hk | ⟨m, rest, -, -, he⟩ | ⟨w, rest, -, rfl⟩ := step_record h hst
    · exact ⟨hk.errCause, hk.errCmd⟩
    · rw [he] at ht; cases ht
    · rw [onCmdWrite_of_err (s := s.withInbox rest) hs]; exact ⟨rfl, rfl⟩
  · obtain hk | ⟨m, rest, hi, hm, -⟩ | ⟨w, rest, -, rfl⟩ := step_record h hst
    · rw [hk.err, hs] at ht; cases ht
    · exact ⟨m, rest, hi, hm⟩
    · rw [onCmdWrite_of_err (s := s.withInbox rest) hs, State.respond_err, State.withInbox_err, hs] at ht; cases ht

/-- Settles O33: only a CMD write can set ERR, and the two outcomes that do are those that refuse it. -/
theorem errIsSetByRefusedCommandsOnly : Obligations.ErrIsSetByRefusedCommandsOnly := by
  intro s t h hst hs ht
  obtain hk | ⟨m, rest, -, -, he⟩ | ⟨w, rest, hi, rfl⟩ := step_record h hst
  · rw [hk.err, hs] at ht; cases ht
  · rw [he] at ht; cases ht
  refine ⟨w, rest, hi, ?_⟩
  cases onCmdWrite_cases w (s.withInbox rest) with
  | discarded he _ => rw [State.withInbox_err, hs] at he; cases he
  | accepted i he hu hd heq => rw [heq] at ht; exact absurd (hs.symm.trans ht) Bool.false_ne_true
  | refusedBusy v n he hu heq =>
    rw [heq]
    exact ⟨rfl, rfl, rfl, rfl, rfl, rfl, .inl ⟨busy_of_busy hu, rfl, rfl⟩⟩
  | refused e he hu hd heq =>
    rw [heq]
    refine ⟨rfl, rfl, rfl, rfl, rfl, rfl, .inr ⟨busy_of_idle hu, rfl, ?_⟩⟩
    cases e with
    | illegalOpcode => exact .inl ⟨rfl, hd⟩
    | reservedField => exact .inr ⟨rfl, hd⟩
    | cmdBusy => exact absurd hd (decode_ne_cmdBusy w)

/-- Settles O51: the write then the completion, and the completion then the write. -/
theorem completionRaceHasBothOutcomes : Obligations.CompletionRaceHasBothOutcomes := by
  intro s w w' i rest hd hb hs he
  refine ⟨fun hi => ?_, fun hi => ?_, fun hw hi => ?_, fun hw hi => ?_⟩
  · obtain ⟨t, ht, hc⟩ := step_lastTick (rest := rest)
      (s := ((s.withInbox (.tick :: rest)).recordError .cmdBusy w').respond ⟨none, false⟩) hd hb le_rfl rfl
    obtain ⟨hidle, hdone, herr, hcause, hcmd, -⟩ := hc.control
    exact ⟨t, runFor_two (step_cmdWrite_busy he hb hs hi) ht, hidle, hdone, herr, hcause, hcmd⟩
  · obtain ⟨u, hu, hc⟩ := step_lastTick hd hb le_rfl hi
    obtain ⟨hidle, hdone, herr, -, -, -, -, hstalled, hinbox, -⟩ := hc.control
    replace herr := herr.trans he
    replace hstalled := hstalled.trans hs
    refine ⟨u, ?_⟩
    cases hd' : decode w' with
    | ok i' =>
      have hw := step_accepts hd' hidle herr hstalled hinbox
      refine ⟨_, runFor_one hu, hdone, hidle, runFor_two hu hw, rfl, ?_, nofun⟩
      rintro _ ⟨⟩
      exact ⟨rfl, herr⟩
    | error e =>
      have hw := step_cmdWrite_error hd' hidle herr hstalled hinbox
      refine ⟨_, runFor_one hu, hdone, hidle, runFor_two hu hw, rfl, nofun, ?_⟩
      rintro _ ⟨⟩
      exact ⟨hidle, rfl, rfl, rfl⟩
  · obtain ⟨t, ht, hc⟩ := step_lastTick (rest := rest)
      (s := ((s.withInbox (.tick :: rest)).writeStatus w').respond ⟨none, false⟩) hd (by simpa using hb) le_rfl (by simp)
    obtain ⟨-, hdone, -⟩ := hc.control
    exact ⟨t, runFor_two (step_statusWrite hs hi) ht, hdone⟩
  · obtain ⟨u, hu, hc⟩ := step_lastTick hd hb le_rfl hi
    obtain ⟨-, -, -, -, -, -, -, hstalled, hinbox, -⟩ := hc.control
    have hw' := step_statusWrite (hstalled.trans hs) hinbox
    exact ⟨_, runFor_two hu hw', by simp [hw]⟩

/-- Settles O52: R180's formula, read off the definitions. -/
theorem irqIsTheEnabledPendingLevel : Obligations.IrqIsTheEnabledPendingLevel := by
  refine ⟨fun s => by simp [State.irq], fun s => ⟨by simp [State.hostIrqInput], fun line hl => ?_⟩, rfl⟩
  simp [State.hostIrqInput, hl]

end Sys2Proof.Spec
end

section
/-! SUPPORT. What the host can see of timing does not depend on data (spec/70_reset_and_hazards.md R221): O40. -/

namespace Sys2Proof.Machine

open Sys2Proof

/-- A run that does not stop has a first step: the converse of `runFor_next`. -/
theorem exists_step_of_runFor_succ {k : Nat} {s t : State} (h : runFor (k + 1) s = .next t) :
    ∃ u, step s = .next u ∧ runFor k u = .next t := by
  cases hst : step s with
  | next u => exact ⟨u, rfl, (runFor_succ hst).symm.trans h⟩
  | fault r => simp [runFor, Host.Core.run, show core.step s = .fault r from hst] at h
  | refused r => simp [runFor, Host.Core.run, show core.step s = .refused r from hst] at h

end Sys2Proof.Machine

namespace Sys2Proof.Spec

open Sys2Proof Sys2Proof.Machine

section
variable {s s' t t' : State}

/-! ### The twin relation, one operation at a time -/

theorem TimingTwin.withInbox (h : TimingTwin s s') (moves : List HostMove) :
    TimingTwin (s.withInbox moves) (s'.withInbox moves) := { h with inbox := rfl }

theorem TimingTwin.withUnit (h : TimingTwin s s') (u : UnitState) : TimingTwin (s.withUnit u) (s'.withUnit u) :=
  { h with unit := rfl }

theorem TimingTwin.withStalled (h : TimingTwin s s') (a : Option Access) :
    TimingTwin (s.withStalled a) (s'.withStalled a) := { h with stalled := rfl }

theorem TimingTwin.withDone (h : TimingTwin s s') (b : Bool) : TimingTwin (s.withDone b) (s'.withDone b) :=
  { h with done := rfl }

theorem TimingTwin.withEnables (h : TimingTwin s s') (d e : Bool) :
    TimingTwin (s.withEnables d e) (s'.withEnables d e) := { h with ieDone := rfl, ieErr := rfl }

/-- What OPRAM holds is no part of the relation. -/
theorem TimingTwin.withOpram (h : TimingTwin s s') (m m' : Memory) : TimingTwin (s.withOpram m) (s'.withOpram m') :=
  { h with }

theorem TimingTwin.withFreeIndex (h : TimingTwin s s') (n : Nat) : TimingTwin (s.withFreeIndex n) (s'.withFreeIndex n) :=
  { h with freeIndex := rfl }

theorem TimingTwin.recordError (h : TimingTwin s s') (e : CommandError) (w : Word) :
    TimingTwin (s.recordError e w) (s'.recordError e w) := { h with err := rfl, errCause := rfl, errCmd := rfl }

theorem TimingTwin.clearError (h : TimingTwin s s') : TimingTwin s.clearError s'.clearError :=
  { h with err := rfl, errCause := rfl, errCmd := rfl }

theorem TimingTwin.finish (h : TimingTwin s s') : TimingTwin s.finish s'.finish := { h with unit := rfl, done := rfl }

/-- The answers given may differ in their data, not in whether they have any or are bus errors. -/
theorem TimingTwin.respond (h : TimingTwin s s') {r r' : Response} (hd : r'.data.isSome = r.data.isSome)
    (hb : r'.busError = r.busError) : TimingTwin (s.respond r) (s'.respond r') :=
  { h with answers := by simp [h.answers, hd, hb] }

theorem TimingTwin.resetBlock (h : TimingTwin s s') : TimingTwin s.resetBlock s'.resetBlock where
  unit := rfl
  done := rfl
  err := rfl
  errCause := rfl
  errCmd := rfl
  ieDone := rfl
  ieErr := rfl
  stalled := h.stalled
  inbox := h.inbox
  answers := h.answers
  freeIndex := h.freeIndex

/-- A free answer is the same in both, since the counters are (U2). -/
theorem TimingTwin.hardReset (h : TimingTwin s s') (during : Option Access) :
    TimingTwin (s.hardReset during) (s'.hardReset during) := by
  cases during with
  | none => exact h.resetBlock
  | some a =>
    simp only [State.hardReset, h.freeIndex]
    exact (h.resetBlock.respond rfl rfl).withFreeIndex _

/-! ### Accesses -/

theorem TimingTwin.busy (h : TimingTwin s s') : s'.busy = s.busy := by rw [State.busy, h.unit, State.busy]

theorem TimingTwin.mustStall (h : TimingTwin s s') (a : Access) : s'.mustStall a = s.mustStall a := by
  rw [State.mustStall, h.busy, State.mustStall]

theorem TimingTwin.heldAccess (h : TimingTwin s s') : s'.heldAccess = s.heldAccess := by
  rw [State.heldAccess, h.busy, h.stalled, State.heldAccess]

theorem TimingTwin.onCmdWrite (h : TimingTwin s s') (w : Word) : TimingTwin (s.onCmdWrite w) (s'.onCmdWrite w) := by
  rw [State.onCmdWrite, State.onCmdWrite, h.err, h.unit]
  split
  · exact h
  · split
    · exact h.recordError _ w
    · split
      · exact (h.withDone false).recordError _ w
      · exact (h.withDone false).withUnit _

theorem TimingTwin.writeStatus (h : TimingTwin s s') (w : Word) : TimingTwin (s.writeStatus w) (s'.writeStatus w) := by
  unfold State.writeStatus
  cases w[1] <;> cases w[2]
  · exact h
  · exact h.clearError
  · exact h.withDone false
  · exact (h.withDone false).clearError

theorem TimingTwin.writeCtrl (h : TimingTwin s s') (w : Word) : TimingTwin (s.writeCtrl w) (s'.writeCtrl w) := by
  unfold State.writeCtrl
  split
  · exact h.resetBlock
  · exact h.withEnables _ _

theorem TimingTwin.windowWrite (h : TimingTwin s s') (o : Offset) (w : Word) :
    TimingTwin (s.windowWrite o w) (s'.windowWrite o w) := by
  unfold State.windowWrite
  cases windowTarget o with
  | opram => exact h.withOpram _ _
  | cmd => exact h.onCmdWrite w
  | status => exact h.writeStatus w
  | ctrl => exact h.writeCtrl w
  | _ => exact h

/-- An access is answered in both, a read perhaps with other data. -/
theorem TimingTwin.perform (h : TimingTwin s s') (a : Access) : TimingTwin (s.perform a) (s'.perform a) := by
  cases hk : a.kind with
  | read => rw [perform_read hk, perform_read hk]; exact h.respond rfl rfl
  | write w =>
    rw [perform_write hk, perform_write hk]
    refine TimingTwin.respond ?_ rfl rfl
    split
    · exact h.windowWrite _ w
    · exact h

/-! ### Completion, steps and runs -/

/-- Exec leaves the control state, so what it does to the data is no part of the relation (R100). -/
theorem TimingTwin.of_sameControl (h : TimingTwin s s') (hc : SameControl s t) (hc' : SameControl s' t') :
    TimingTwin t t' where
  unit := by rw [hc'.unit, h.unit, hc.unit]
  done := by rw [hc'.done, h.done, hc.done]
  err := by rw [hc'.err, h.err, hc.err]
  errCause := by rw [hc'.errCause, h.errCause, hc.errCause]
  errCmd := by rw [hc'.errCmd, h.errCmd, hc.errCmd]
  ieDone := by rw [hc'.ieDone, h.ieDone, hc.ieDone]
  ieErr := by rw [hc'.ieErr, h.ieErr, hc.ieErr]
  stalled := by rw [hc'.stalled, h.stalled, hc.stalled]
  inbox := by rw [hc'.inbox, h.inbox, hc.inbox]
  answers := by rw [hc'.responses, h.answers, hc.responses]
  freeIndex := by rw [hc'.freeIndex, h.freeIndex, hc.freeIndex]

/-- The word the unit holds completes whatever the data are (R101). -/
theorem TimingTwin.completes (h : TimingTwin s s') {w : Word} (hc : Completes w s t) :
    ∃ t', Completes w s' t' ∧ TimingTwin t t' := by
  obtain ⟨i, u, hd, he, rfl⟩ := hc
  obtain ⟨v, hv, hsame, -⟩ := exec_spec i s
  obtain ⟨u', he', hsame', -⟩ := exec_spec i s'
  obtain rfl : u = v := by simpa using he.symm.trans hv
  exact ⟨u'.finish, ⟨i, u', hd, he', rfl⟩, (h.of_sameControl hsame hsame').finish⟩

/-- A state's twin steps in the same way, whichever of the ten of `StepCase` it is (R221). -/
theorem TimingTwin.stepCase (h : TimingTwin s s') (hst : StepCase s t) : ∃ t', StepCase s' t' ∧ TimingTwin t t' := by
  cases hst with
  | held a hb hs ht =>
    rw [ht]
    exact ⟨_, .held a (h.unit.trans hb) (h.stalled.trans hs) rfl, (h.withStalled none).perform a⟩
  | waits hs hi hb ht =>
    rw [ht]
    exact ⟨s', .waits (h.stalled.trans hs) (h.inbox.trans hi) (h.unit.trans hb) rfl, h⟩
  | completes w n hb hi ht =>
    obtain ⟨t', hc, htwin⟩ := h.completes ht
    exact ⟨t', .completes w n (h.unit.trans hb) (by rwa [h.inbox, h.stalled]) hc, htwin⟩
  | lastTick w n rest hb hn hi ht =>
    obtain ⟨t', hc, htwin⟩ := (h.withInbox rest).completes ht
    exact ⟨t', .lastTick w n rest (h.unit.trans hb) hn (h.inbox.trans hi) hc, htwin⟩
  | busyTick w n rest hb hn hi ht =>
    rw [ht]
    exact ⟨_, .busyTick w n rest (h.unit.trans hb) hn (h.inbox.trans hi) rfl, (h.withInbox rest).withUnit _⟩
  | idleTime m rest hm hs hb hi ht =>
    rw [ht]
    exact ⟨_, .idleTime m rest hm (h.stalled.trans hs) (h.unit.trans hb) (h.inbox.trans hi) rfl, h.withInbox rest⟩
  | awaited w n rest hb hi ht =>
    obtain ⟨t', hc, htwin⟩ := (h.withInbox rest).completes ht
    exact ⟨t', .awaited w n rest (h.unit.trans hb) (h.inbox.trans hi) hc, htwin⟩
  | reset during rest hh hi ht =>
    rw [ht]
    exact ⟨_, .reset during rest (h.heldAccess.trans hh) (h.inbox.trans hi) rfl, (h.withInbox rest).hardReset during⟩
  | stalls a rest hs hi hm ht =>
    rw [ht]
    exact ⟨_, .stalls a rest (h.stalled.trans hs) (h.inbox.trans hi) ((h.mustStall a).trans hm) rfl,
      (h.withInbox rest).withStalled _⟩
  | performs a rest hs hi hm ht =>
    rw [ht]
    exact ⟨_, .performs a rest (h.stalled.trans hs) (h.inbox.trans hi) ((h.mustStall a).trans hm) rfl,
      (h.withInbox rest).perform a⟩

theorem TimingTwin.step_next (h : TimingTwin s s') (hst : step s = .next t) :
    ∃ t', step s' = .next t' ∧ TimingTwin t t' := by
  obtain ⟨t', hst', htwin⟩ := h.stepCase (step_cases hst)
  exact ⟨t', hst'.step_eq, htwin⟩

end

/-- Settles O40, by induction on the steps: a twin takes each of them in the same way (`TimingTwin.stepCase`). -/
theorem timingIsDataIndependent : Obligations.TimingIsDataIndependent := by
  intro k
  induction k with
  | zero =>
    intro s s' t h hr
    obtain rfl : s = t := by simpa [runFor_zero] using hr
    exact ⟨s', runFor_zero s', h⟩
  | succ k ih =>
    intro s s' t h hr
    obtain ⟨u, hu, hr⟩ := exists_step_of_runFor_succ hr
    obtain ⟨u', hu', htwin⟩ := h.step_next hu
    obtain ⟨t', hr', ht⟩ := ih u u' t htwin hr
    exact ⟨t', runFor_next hu' hr', ht⟩

end Sys2Proof.Spec
end

section
/-! SUPPORT. Resets and latencies (spec/70_reset_and_hazards.md R200 to R202, R220, U2): O2, O3, O26 and O37. -/

namespace Sys2Proof.Machine

open Sys2Proof Sys2Proof.Laws

/-! ### LAT_op by opcode (R220) -/

/-- The latency of the commands with the opcode (R84, R220); the last case also takes the opcodes of no command. -/
def latencyOfOp (op : BitVec 8) : Nat :=
  match op.toNat with
  | 1 => Config.latFadd
  | 2 => Config.latFsub
  | 3 => Config.latFmul
  | 4 => Config.latFsqr
  | 5 => Config.latFneg
  | 6 => Config.latFinv
  | 7 => Config.latFcswap
  | 8 => Config.latFld
  | _ => Config.latFst

theorem latencyOf_eq_latencyOfOp (i : Instr) : latencyOf i = latencyOfOp (rowFor i).op := by
  cases i <;> rfl

theorem latencyOf_of_decode {w : Word} {i : Instr} (hd : decode w = .ok i) : latencyOf i = latencyOfOp (fieldOp w) := by
  obtain ⟨hs, -⟩ := decode_eq_ok_iff.1 hd
  rw [fieldOp_of_selects (rowFor_mem i) hs, latencyOf_eq_latencyOfOp]

/-! ### The cycles of a command (R25, R27) -/

section
variable {w : Word} {rest : List HostMove}

/-- A cycle of a command with more to go is counted, and nothing else happens to the unit. -/
theorem step_busyTick {n : Nat} {s : State} (hn : 0 < n) (hb : s.unit = .busy w (n + 1)) (hi : s.inbox = .tick :: rest) :
    ∃ t, step s = .next t ∧ t.unit = .busy w n ∧ t.inbox = rest :=
  ⟨_, (StepCase.busyTick w (n + 1) rest hb (Nat.succ_lt_succ hn) hi rfl).step_eq, rfl, rfl⟩

/-- A command with n cycles to go is still held after fewer of them. -/
theorem busy_after_fewer_ticks {k n : Nat} {s : State} (hk : k < n) (hb : s.unit = .busy w n)
    (hi : s.inbox = List.replicate n .tick ++ rest) : ∃ t, runFor k s = .next t ∧ t.unit = .busy w (n - k) := by
  induction k generalizing n s with
  | zero => exact ⟨s, runFor_zero s, hb⟩
  | succ k ih =>
    obtain ⟨n, rfl⟩ : ∃ m, n = m + 1 := ⟨n - 1, by omega⟩
    obtain ⟨u, hst, hbu, hiu⟩ := step_busyTick (by omega) hb hi
    obtain ⟨t, ht, hu⟩ := ih (Nat.lt_of_succ_lt_succ hk) hbu hiu
    exact ⟨t, runFor_next hst ht, by rw [hu, Nat.succ_sub_succ]⟩

/-- A command with n + 1 cycles to go completes after all of them. -/
theorem completes_after_ticks {i : Instr} {n : Nat} {s : State} (hd : decode w = .ok i) (hb : s.unit = .busy w (n + 1))
    (hi : s.inbox = List.replicate (n + 1) .tick ++ rest) :
    ∃ t, runFor (n + 1) s = .next t ∧ t.unit = .idle ∧ t.done = true ∧ t.inbox = rest := by
  induction n generalizing s with
  | zero =>
    obtain ⟨t, ht, hc⟩ := step_lastTick hd hb le_rfl hi
    obtain ⟨hidle, hdone, -, -, -, -, -, -, hinbox, -⟩ := hc.control
    exact ⟨t, runFor_one ht, hidle, hdone, hinbox⟩
  | succ n ih =>
    obtain ⟨u, hst, hbu, hiu⟩ := step_busyTick n.succ_pos hb hi
    obtain ⟨t, ht, hend⟩ := ih hbu hiu
    exact ⟨t, runFor_next hst ht, hend⟩

end

end Sys2Proof.Machine

namespace Sys2Proof.Spec

open Sys2Proof Sys2Proof.Machine

/-- Settles O2: both resets are `State.resetBlock`, which keeps only what is outside the block. -/
theorem resetAbandonsTheCommandAndClears : Obligations.ResetAbandonsTheCommandAndClears := by
  refine ⟨fun s rest hh hi => (StepCase.reset none rest hh hi rfl).step_eq, fun s w rest hw hs hi => ?_, fun s => ?_⟩
  · rw [step_write hs hi (by decide) (.inr (by decide)), windowWrite_ctrl, State.writeCtrl_srst _ _ hw, ← hs]
    rfl
  · obtain ⟨-, -, high⟩ := ctrlWord_bits s
    exact high 2 le_rfl

/-- Settles O37: the cycles by induction on their number, and the latency as a function of OP. -/
theorem latencyIsOfTheOpcode : Obligations.LatencyIsOfTheOpcode := by
  refine ⟨fun w i s rest hd hb hi => ⟨fun k hk => busy_after_fewer_ticks hk hb hi, ?_⟩, fun w w' i i' hd hd' ho => ?_,
    one_le_latencyOf⟩
  · obtain ⟨n, hn⟩ := Nat.exists_eq_add_of_le' (one_le_latencyOf i)
    rw [hn] at hb hi ⊢
    exact completes_after_ticks hd hb hi
  · have hop : fieldOp w = fieldOp w' := BitVec.eq_of_toNat_eq (by rw [fieldOp_toNat, ho, fieldOp_toNat])
    rw [latencyOf_of_decode hd, hop, latencyOf_of_decode hd']

/-- Settles O3: the answer is the one of `freeResponse`, of which nothing is said. -/
theorem accessDuringRstIsLost : Obligations.AccessDuringRstIsLost :=
  fun s a rest hh hi => ⟨freeResponse s.freeIndex a, (StepCase.reset (some a) rest hh hi rfl).step_eq⟩

/-- Settles O26: IDLE, no error recorded and nothing held, so each clause has no case. -/
theorem resetHasTheInvariant : Obligations.ResetHasTheInvariant where
  opram_wf := rfl
  holds_command := nofun
  busy_not_done := nofun
  no_error_no_record _ := ⟨rfl, rfl⟩
  error_has_cause := nofun
  cause_describes_word := ⟨fun h => absurd h (by decide), fun h => absurd h (by decide)⟩
  holds_opram_access := nofun

end Sys2Proof.Spec
end
